-- ==== Sys2Proof/Word.lean ====
section
/-! DEFINITION. The word types of the hardware and their plainest arithmetic (spec/00_scope.md R7). -/

namespace Sys2Proof

/-- A word: 32 bits, unsigned (R7). -/
abbrev Word := BitVec 32

/-- A byte: 8 bits (R7). -/
abbrev Byte := BitVec 8

/-- Sixteen words: the core state, the keystream cache, and the argument and result of the core function (R10, R11). -/
abbrev Block := Vector Word 16

/-- `ceil4(n) = (n + 3) div 4`: how many words hold `n` bytes (R7). -/
def ceil4 (n : Nat) : Nat := (n + 3) / 4

end Sys2Proof
end

