-- ==== Sys2Proof/Syntax.lean ====
section
/-! DEFINITION. The nine commands of the hardware, one constructor per row of the opcode table (spec/30_encoding.md R48),
with their operands assembled (R49). The unit of execution is the command packet (spec/10_state.md R16). -/

namespace Sys2Proof

/-- The nine opcodes' names (R48), without operands. -/
inductive Op where
  | setkey | setiv | step | next | xorb | xorbuf | getstate | setstate | status
  deriving DecidableEq, Repr

/-- A command with its operands. The payload words of a command are operands (R49); its reserved header bits are not:
a packet in which one is set is no command and is rejected by the decoder (R51 (b)). -/
inductive Instr where
  /-- `SETKEY k0 … k7` (R66). -/
  | setkey (k : Vector Word 8)
  /-- `SETIV iv0 iv1` (R67). -/
  | setiv (iv : Vector Word 2)
  /-- `STEP` (R78). -/
  | step
  /-- `NEXT` (R80). -/
  | next
  /-- `XORB bb` (R86). -/
  | xorb (byte : Byte)
  /-- `XORBUF len : …` (R87): the byte count and the payload words as they were sent, pad bytes included. -/
  | xorbuf (len : BitVec 24) (pay : List Word)
  /-- `GETSTATE` (R91). -/
  | getstate
  /-- `SETSTATE w0 … w32` (R92). -/
  | setstate (blob : Vector Word 33)
  /-- `STATUS` (R93). -/
  | status
  deriving DecidableEq, Repr

/-- The opcode a command stands under. -/
def Instr.op : Instr → Op
  | .setkey _ => .setkey
  | .setiv _ => .setiv
  | .step => .step
  | .next => .next
  | .xorb _ => .xorb
  | .xorbuf _ _ => .xorbuf
  | .getstate => .getstate
  | .setstate _ => .setstate
  | .status => .status

end Sys2Proof
end

