-- ==== Sys2Proof/WellFormed.lean ====
section
/-! DEFINITION. Which commands are well formed. Every operand's width is its type's; the one relation between operands is
that an `XORBUF` carries `ceil4(len)` payload words (spec/30_encoding.md R45, format L). -/

namespace Sys2Proof

/-- An `XORBUF` has exactly `ceil4(len)` payload words (R45, R46); every other command is well formed by its type. -/
def Instr.wf : Instr → Bool
  | .xorbuf len pay => pay.length == ceil4 len.toNat
  | .setkey _ | .setiv _ | .step | .next | .xorb _ | .getstate | .setstate _ | .status => true

end Sys2Proof
end

