-- ==== Sys2Proof/Decode.lean ====
section
/-! DEFINITION. The packet encoding (spec/30_encoding.md): header fields (R45), payload length (R46), opcode map (R48),
operand assembly (R49), decoding in the order of R50 with rejection by name (R51), and the encoder of well-formed commands.
The packets of this hardware are lists of 32-bit words; there is no byte-addressed program. -/

namespace Sys2Proof

/-! ## Header fields (R45) -/

/-- `op`: header bits 7:0 (R45). -/
def opField (hdr : Word) : Byte := hdr.extractLsb' 0 8

/-- `arg`: header bits 31:8 (R45); the `len` of `XORBUF` (R49 (d)). -/
def argField (hdr : Word) : BitVec 24 := hdr.extractLsb' 8 24

/-- `byte`: header bits 15:8 of format B (R45; R49 (c)). -/
def byteField (hdr : Word) : Byte := hdr.extractLsb' 8 8

/-! ## The opcode map (R48) -/

/-- The opcode numbers of R48. -/
def Op.code : Op → Byte
  | .setkey => 0x01
  | .setiv => 0x02
  | .step => 0x03
  | .next => 0x04
  | .xorb => 0x05
  | .xorbuf => 0x06
  | .getstate => 0x07
  | .setstate => 0x08
  | .status => 0x09

/-- The rows of the opcode table, in its order (R48). -/
def Op.all : List Op := [.setkey, .setiv, .step, .next, .xorb, .xorbuf, .getstate, .setstate, .status]

/-- The command an opcode byte selects; 0x00 and 0x0A to 0xFF select none (R48, R51 (a)). -/
def Op.ofCode (b : Byte) : Option Op := Op.all.find? fun o => o.code == b

/-- The header bits that must be zero: all of `arg` in formats Z and P, `arg[23:8]` in format B, none in format L (R45). -/
def Op.reserved : Op → Word
  | .xorb => 0xFFFF0000
  | .xorbuf => 0x00000000
  | .setkey | .setiv | .step | .next | .getstate | .setstate | .status => 0xFFFFFF00

/-- The header mask of the opcode table's row (R48): the opcode bits and the reserved bits. -/
def Op.mask (o : Op) : Word := 0x000000FF ||| o.reserved

/-- The header match of the opcode table's row (R48): the opcode, every reserved bit zero. -/
def Op.matchWord (o : Op) : Word := o.code.setWidth 32

/-- How many payload words follow a header of this opcode (R46). -/
def Op.payloadWords (o : Op) (hdr : Word) : Nat :=
  match o with
  | .setkey => 8
  | .setiv => 2
  | .setstate => 33
  | .xorbuf => ceil4 (argField hdr).toNat
  | .step | .next | .xorb | .getstate | .status => 0

/-- `paylen(hdr)`: the number of payload words, from the header word alone, for illegal headers too (R46). -/
def paylen (hdr : Word) : Nat :=
  match Op.ofCode (opField hdr) with
  | some o => o.payloadWords hdr
  | none => 0

/-! ## Decoding (R49, R50) -/

/-- Why a packet is no command. `illegalOpcode` and `reservedField` are answered with the error response of the same name
(R101, R102); `noHeader` and `wrongLength` say that the words are not one whole packet, which the command port never lets
through (Sys2Proof/Machine/Port.lean, `gather`). -/
inductive Reject where
  | noHeader
  | illegalOpcode
  | reservedField
  | wrongLength
  deriving DecidableEq, Repr

/-- Whether a list has exactly `n` members. -/
def hasLength {α : Type} : List α → Nat → Bool
  | [], 0 => true
  | _ :: as, n + 1 => hasLength as n
  | [], _ + 1 => false
  | _ :: _, 0 => false

/-- The payload words as a vector of `n`, if there are just `n` of them. -/
def takeVector (n : Nat) (pay : List Word) : Option (Vector Word n) :=
  if h : pay.length = n then some ⟨pay.toArray, by simp [h]⟩ else none

/-- `wrongLength` unless the payload had the command's length. -/
def orWrongLength (i : Option Instr) : Except Reject Instr :=
  match i with
  | some i => .ok i
  | none => .error .wrongLength

/-- Operand assembly: the command of a legal header and its payload (R49). -/
def assemble (o : Op) (hdr : Word) (pay : List Word) : Except Reject Instr :=
  match o with
  | .setkey => orWrongLength ((takeVector 8 pay).map .setkey)
  | .setiv => orWrongLength ((takeVector 2 pay).map .setiv)
  | .step => orWrongLength (if pay.isEmpty then some .step else none)
  | .next => orWrongLength (if pay.isEmpty then some .next else none)
  | .xorb => orWrongLength (if pay.isEmpty then some (.xorb (byteField hdr)) else none)
  | .xorbuf =>
    orWrongLength (if hasLength pay (ceil4 (argField hdr).toNat) then some (.xorbuf (argField hdr) pay) else none)
  | .getstate => orWrongLength (if pay.isEmpty then some .getstate else none)
  | .setstate => orWrongLength ((takeVector 33 pay).map .setstate)
  | .status => orWrongLength (if pay.isEmpty then some .status else none)

/-- Decoding a header and its payload: the opcode is checked first, then the reserved fields (R50, steps 1 and 2).
Steps 3 and 4 of R50 look at the state and at the blob, and belong to the commands' meanings. -/
def decodePacket (hdr : Word) (pay : List Word) : Except Reject Instr :=
  match Op.ofCode (opField hdr) with
  | none => .error .illegalOpcode
  | some o => if hdr &&& o.reserved = 0 then assemble o hdr pay else .error .reservedField

/-- Decoding the words of one packet, header first (R45, R50). -/
def decode : List Word → Except Reject Instr
  | [] => .error .noHeader
  | hdr :: pay => decodePacket hdr pay

/-! ## Encoding (R45, R48, R49) -/

/-- A header word: `arg` in bits 31:8, the opcode in bits 7:0 (R45). -/
def header (o : Op) (arg : BitVec 24) : Word := o.code.setWidth 32 ||| (arg.setWidth 32 <<< 8)

/-- The 24-bit `arg` a command's header carries (R45). -/
def Instr.arg : Instr → BitVec 24
  | .xorb byte => byte.setWidth 24
  | .xorbuf len _ => len
  | .setkey _ | .setiv _ | .step | .next | .getstate | .setstate _ | .status => 0

/-- The payload words of a command (R45, R49). -/
def Instr.payload : Instr → List Word
  | .setkey k => k.toList
  | .setiv iv => iv.toList
  | .xorbuf _ pay => pay
  | .setstate blob => blob.toList
  | .step | .next | .xorb _ | .getstate | .status => []

/-- The packet of a command: header, then payload (R45). -/
def encode (i : Instr) : List Word := header i.op i.arg :: i.payload

/-! ## The opcode table's words -/

/-- The first `n` 32-bit words of a number, least significant word first. -/
def wordsOf : Nat → Nat → List Word
  | 0, _ => []
  | n + 1, w => BitVec.ofNat 32 w :: wordsOf n (w >>> 32)

/-- The header of the packet whose bits, numbered as the opcode table numbers them, are the low `nbits` bits of `w`. -/
def tableHeader (nbits w : Nat) : Word := BitVec.ofNat 32 (w % 2 ^ nbits)

/-- The payload of that packet: the bits above the header, and zero above `nbits`, as many words as the header asks for. -/
def tablePayload (nbits w : Nat) : List Word := wordsOf (paylen (tableHeader nbits w)) ((w % 2 ^ nbits) >>> 32)

/-- What the decoder reads from an opcode-table word. -/
def decodeTableWord (nbits w : Nat) : Option Instr :=
  match decode (tableHeader nbits w :: tablePayload nbits w) with
  | .ok i => some i
  | .error _ => none

end Sys2Proof
end

