-- ==== Sys2Proof/Config.lean ====
section
/-! DEFINITION. What is fixed for this hardware (spec/00_scope.md R6) and what the spec leaves without a value at reset.
The model has no free value: the spec gives every result, and the one thing it gives no value to, the core words before
they are first written, is read by no rule (R22; notes/assumptions/1.md). -/

namespace Sys2Proof.Config

/-- `MAXLEN`, the largest byte count of one `XORBUF` packet (R6, R52). -/
def maxLen : Nat := 2 ^ 24 - 1

/-- DESIGN CHOICE (notes/assumptions/1.md): what a core word holds before it is first written. The spec gives it no value
(R22) and reads it nowhere; every register of this model's State holds a value, and zero stands for "no value" here. -/
def coreWordAtReset : Word := 0

end Sys2Proof.Config
end

