-- ==== Sys2Proof/Machine/State.lean ====
section
/-! DEFINITION. The machine's state (spec/10_state.md R10 to R15), its value after reset (R19), and the reasons a step can
stop. The hardware has no memory, no program counter and no other register (R16, R17); what it has beside its registers is
the command port (spec/30_encoding.md R45, R47): the words sent to it and not yet taken, and the responses it has sent that
the host has not yet collected. -/

namespace Sys2Proof.Machine

/-- What the host does at the port, in the order it does it (spec/60_exceptions.md R113): it sends a word, collects the
oldest response, or resets the block (spec/70_reset_and_hazards.md R120). -/
inductive PortEvent where
  | word (w : Word)
  | collect
  | reset
  deriving DecidableEq, Repr

/-- The whole state. `counter` (R14), `ready` (R13) and the status word (R15) are views of it, not fields. -/
structure State where
  /-- `core[0..15]`, the core state (R10). -/
  core : Block
  /-- `cache[0..15]`, the keystream cache (R11). -/
  cache : Block
  /-- `cur`, the number of cache bytes consumed, 0..64 (R12). -/
  cur : BitVec 7
  /-- `key_valid` (R13). -/
  keyValid : Bool
  /-- `iv_valid` (R13). -/
  ivValid : Bool
  /-- The command port's input: what the host has done at the port that the hardware has not taken yet, oldest first. The
  words of a packet that is not complete yet wait here (spec/30_encoding.md R46). -/
  input : List PortEvent
  /-- The response packets sent and not yet collected, oldest first, each the list of its words (spec/30_encoding.md R47). -/
  outbox : List (List Word)
  deriving DecidableEq, Repr

/-- Why the machine stops. From a state whose cursor is at most 64, which is every reachable one (R12), no step stops. -/
inductive Fault where
  /-- Raised by `XORB` and `XORBUF` when the cursor is above 64: the cache byte view has no byte there, and `MemRead` "is
  defined only for addr + n <= 64" (spec/00_scope.md R8). Safe: no reachable state has such a cursor. -/
  | cacheAddress
  /-- Raised when words that are not one whole packet reach the decoder. Safe: the command port hands over a header with
  exactly `paylen` payload words (spec/30_encoding.md R46), so no step raises it. -/
  | packetLength
  deriving DecidableEq, Repr

/-- Why the model gives an instruction no meaning. -/
inductive Refusal where
  /-- Raised by an arm of `exec` whose instruction has no meaning yet. Safe. No arm of this model raises it. -/
  | notModelled (mnemonic : String)
  deriving DecidableEq, Repr

/-- The answer of a step. -/
abbrev Result := Host.Outcome State Fault Refusal

/-- The state after reset (R19): cursor 64, flags 0, cache sixteen zero words. The core words have no value in the spec;
what stands for them is Config.coreWordAtReset (notes/assumptions/1.md). No word waits and no response is undelivered
(spec/70_reset_and_hazards.md R121). -/
def State.reset : State where
  core := Vector.replicate 16 Config.coreWordAtReset
  cache := Vector.replicate 16 0
  cur := 64
  keyValid := false
  ivValid := false
  input := []
  outbox := []

end Sys2Proof.Machine
end

