-- ==== Sys2Proof/Machine/Flags.lean ====
section
/-! DEFINITION. The views of the flags and the counter: `ready` (spec/10_state.md R13), `counter` (R14) and the status word
(R15). -/

namespace Sys2Proof.Machine

/-- `ready`: both validity flags are set (R13). -/
def State.ready (s : State) : Bool := s.keyValid && s.ivValid

/-- The 64-bit counter in sixteen core words: word 9 above word 8, "value `core[9] * 2^32 + core[8]`" (R14). -/
def counterOf (x : Block) : BitVec 64 := BitVec.ofNat 64 (x[9].toNat * 2 ^ 32 + x[8].toNat)

/-- `counter`: the view `core[9] : core[8]` (R14). -/
def State.counter (s : State) : BitVec 64 := counterOf s.core

/-- A flag as a 32-bit word. -/
def flagWord (b : Bool) : Word := if b then 1 else 0

/-- The status word: `KV` bit 0, `IVV` bit 1, `CUR` bits 14:8, the rest zero (R15, R93). -/
def statusView (s : State) : Word := flagWord s.keyValid ||| (flagWord s.ivValid <<< 1) ||| (s.cur.setWidth 32 <<< 8)

end Sys2Proof.Machine
end

