-- ==== Sys2Proof/Machine/Operands.lean ====
section
/-! DEFINITION. How operands and results are laid out in words: message bytes in payload words and output bytes in response
words (spec/20_memory.md R31 (b), spec/30_encoding.md R49 (d)), and the saved state (spec/44_state_save_restore.md R90). -/

namespace Sys2Proof.Machine

/-- The byte of a word whose bits are `8*k+7 : 8*k` (R31). -/
def byteOfWord (w : Word) (k : Nat) : Byte := w.extractLsb' (8 * k) 8

/-- The four bytes of a word, least significant first (R31). -/
def wordBytes (w : Word) : List Byte := [byteOfWord w 0, byteOfWord w 1, byteOfWord w 2, byteOfWord w 3]

/-- The word of four bytes, the first one least significant (R31). -/
def packWord (b0 b1 b2 b3 : Byte) : Word :=
  b0.setWidth 32 ||| (b1.setWidth 32 <<< 8) ||| (b2.setWidth 32 <<< 16) ||| (b3.setWidth 32 <<< 24)

/-- The message of an `XORBUF`: byte `j` is bits `8*(j mod 4)+7 : 8*(j mod 4)` of payload word `j div 4`, for `j < len`; the
bytes of the last word above byte `len - 1` are ignored (R49 (d)). -/
def messageBytes (len : BitVec 24) (pay : List Word) : List Byte := (pay.flatMap wordBytes).take len.toNat

/-- Bytes packed four to a word in the same order, the unused high bytes of the last word zero (R47, R87). -/
def packBytes : List Byte → List Word
  | [] => []
  | [b0] => [packWord b0 0 0 0]
  | [b0, b1] => [packWord b0 b1 0 0]
  | [b0, b1, b2] => [packWord b0 b1 b2 0]
  | b0 :: b1 :: b2 :: b3 :: rest => packWord b0 b1 b2 b3 :: packBytes rest
termination_by structural bytes => bytes

/-- The saved state as `GETSTATE` returns it: core words, cache words, cursor zero-extended to a word (R90). -/
def blobWords (s : State) : List Word := s.core.toList ++ s.cache.toList ++ [s.cur.setWidth 32]

/-- Blob words 0 .. 15: the core words (R90). -/
def blobCore (b : Vector Word 33) : Block := Vector.ofFn fun i : Fin 16 => b[i.val]

/-- Blob words 16 .. 31: the cache words (R90). -/
def blobCache (b : Vector Word 33) : Block := Vector.ofFn fun i : Fin 16 => b[16 + i.val]

/-- Blob word 32: the cursor as a full word (R49 (e), R90). -/
def blobCursor (b : Vector Word 33) : Word := b[32]

end Sys2Proof.Machine
end

