-- ==== Sys2Proof/Machine/Salsa.lean ====
section
/-! DEFINITION. The core function: from the quarter-round to the block (spec/41_core_function.md R70 to R74, R79), pure
functions of words; and the sigma words (spec/40_key_iv_schedule.md R65). -/

namespace Sys2Proof.Machine

/-- `a <<< n` of R7: rotation left, for `0 < n < 32`. -/
def rotl (a : Word) (n : Nat) : Word := (a <<< n) ||| (a >>> (32 - n))

/-- `QuarterRound` (R70); additions modulo 2^32 (R79). -/
def quarterRound (y0 y1 y2 y3 : Word) : Word × Word × Word × Word :=
  let z1 := y1 ^^^ rotl (y0 + y3) 7
  let z2 := y2 ^^^ rotl (z1 + y0) 9
  let z3 := y3 ^^^ rotl (z2 + z1) 13
  let z0 := y0 ^^^ rotl (z3 + z2) 18
  (z0, z1, z2, z3)

/-- `ColumnRound` (R71). -/
def columnRound (x : Block) : Block :=
  let (x0, x4, x8, x12) := quarterRound x[0] x[4] x[8] x[12]
  let (x5, x9, x13, x1) := quarterRound x[5] x[9] x[13] x[1]
  let (x10, x14, x2, x6) := quarterRound x[10] x[14] x[2] x[6]
  let (x15, x3, x7, x11) := quarterRound x[15] x[3] x[7] x[11]
  #v[x0, x1, x2, x3, x4, x5, x6, x7, x8, x9, x10, x11, x12, x13, x14, x15]

/-- `RowRound` (R72). -/
def rowRound (x : Block) : Block :=
  let (x0, x1, x2, x3) := quarterRound x[0] x[1] x[2] x[3]
  let (x5, x6, x7, x4) := quarterRound x[5] x[6] x[7] x[4]
  let (x10, x11, x8, x9) := quarterRound x[10] x[11] x[8] x[9]
  let (x15, x12, x13, x14) := quarterRound x[15] x[12] x[13] x[14]
  #v[x0, x1, x2, x3, x4, x5, x6, x7, x8, x9, x10, x11, x12, x13, x14, x15]

/-- `DoubleRound`: the column pass, then the row pass (R73). -/
def doubleRound (x : Block) : Block := rowRound (columnRound x)

/-- `n` double-rounds. -/
def doubleRounds : Nat → Block → Block
  | 0, x => x
  | n + 1, x => doubleRounds n (doubleRound x)

/-- Word by word addition modulo 2^32, the feed-forward (R74). -/
def addBlocks (x y : Block) : Block := Vector.ofFn fun i => x[i] + y[i]

/-- `Salsa8Block`: four double-rounds and the feed-forward (R74). -/
def salsa8Block (input : Block) : Block := addBlocks (doubleRounds 4 input) input

/-- The sigma words (R65). -/
def sigma : Vector Word 4 := #v[0x61707865, 0x3320646E, 0x79622D32, 0x6B206574]

end Sys2Proof.Machine
end

