-- ==== Sys2Proof/Machine/Ops.lean ====
section
/-! DEFINITION. The shared operations over the state: the response to a command and the error response, which is all an
exception of this hardware is (spec/60_exceptions.md R100 to R107: nothing is saved, control goes nowhere, and there is no
return from it); the cache byte view (spec/20_memory.md R30, R31); the refill (spec/41_core_function.md R75, R77); the byte
step of the XOR unit (spec/43_stream_cipher_xor.md R85); and the loads of key, IV and blob. -/

namespace Sys2Proof.Machine

/-! ## Responses and errors -/

/-- The four error causes (R100). -/
inductive ErrorCode where
  | illegalOpcode
  | reservedField
  | uninit
  | badState
  deriving DecidableEq, Repr

/-- Their codes (R100). -/
def ErrorCode.code : ErrorCode → Byte
  | .illegalOpcode => 0x01
  | .reservedField => 0x02
  | .uninit => 0x03
  | .badState => 0x04

/-- The status word of a response: `status` in bits 7:0, `echo` in bits 15:8, bits 31:16 zero (R47). -/
def responseWord (status echo : Byte) : Word := status.setWidth 32 ||| (echo.setWidth 32 <<< 8)

/-- A response packet is sent: it stands behind those not yet collected (R47, "Responses come back in command order"). -/
def send (packet : List Word) (s : State) : State := { s with outbox := s.outbox ++ [packet] }

/-- `respond(d0, d1, ...)`: status OK and the data words (R8, R47). -/
def respond (o : Op) (data : List Word) (s : State) : State := send (responseWord 0x00 o.code :: data) s

/-- `raise <Error>`: the one-word error response, and no change of state (R8, R106). This is all there is of taking an
exception: no register is saved, no mode changes, control goes nowhere, and nothing is to be returned from (R106, R107). -/
def raiseError (e : ErrorCode) (echo : Byte) (s : State) : State := send [responseWord e.code echo] s

/-- `if not ready : raise ERR_UNINIT`, else the command goes on (R103). -/
def requireReady (o : Op) (s : State) (body : Result) : Result :=
  if s.ready then body else .next (raiseError .uninit o.code s)

/-! ## The cache byte view (R30, R31) -/

/-- `CacheByte(a)`: byte `a` of the 64-byte view; none outside it (R8, R31 (a)). -/
def cacheByte (x : Block) (a : Nat) : Option Byte := x[a / 4]?.map fun w => byteOfWord w (a % 4)

/-- The sum of `byte(a + j) * 2^(8j)` over `j` below `n` (R31 (a)); none where one of the bytes is outside the view. -/
def littleEndian (x : Block) (a : Nat) : Nat → Option Nat
  | 0 => some 0
  | n + 1 =>
    match cacheByte x a, littleEndian x (a + 1) n with
    | some b, some r => some (b.toNat + 256 * r)
    | _, _ => none

/-- `MemRead(a, n)`: `n` bytes at byte address `a` as a little-endian number; "it is defined only for `addr + n <= 64`", of
no bytes too (R8, R31 (a)). -/
def memRead (x : Block) (a n : Nat) : Option Nat := if a + n ≤ 64 then littleEndian x a n else none

/-! ## The refill (R75, R77) -/

/-- The counter increment on the two counter words, the carry going into the high one (R75). -/
def incrementCounter (x : Block) : Block :=
  let low := x[8] + 1
  (x.set 8 low).set 9 (if low = 0 then x[9] + 1 else x[9])

/-- `Refill()` (R77): the block of the counter value on entry, the counter plus one, the cursor 0. -/
def refill (s : State) : State := { s with cache := salsa8Block s.core, core := incrementCounter s.core, cur := 0 }

/-! ## The byte step (R85) -/

/-- `XorByte(b)` (R85): the output byte and the state after it. None where the cursor names no byte of the cache (R8). -/
def xorByte (b : Byte) (s : State) : Option (Byte × State) :=
  let s := if s.cur = 64 then refill s else s
  (cacheByte s.cache s.cur.toNat).map fun k => (b ^^^ k, { s with cur := s.cur + 1 })

/-- `XorByte` on each byte of a message, in increasing order (R87). -/
def xorBytes : List Byte → State → Option (List Byte × State)
  | [], s => some ([], s)
  | b :: bs, s =>
    match xorByte b s with
    | none => none
    | some (o, s') =>
      match xorBytes bs s' with
      | none => none
      | some (os, s'') => some (o :: os, s'')

/-! ## The draw (R80) -/

/-- The two consecutive cache words `w` and `w + 1` are the draw, low word first, and the cursor moves past them (R80). -/
def drawAt (w : Nat) (h : w + 1 < 16) (s : State) : State :=
  respond .next [s.cache[w], s.cache[w + 1]] { s with cur := BitVec.ofNat 7 (4 * (w + 2)) }

/-! ## Loads -/

/-- The key and the constants in their words; the IV and counter words untouched (R65, R66). -/
def loadKey (k : Vector Word 8) (s : State) : State :=
  { s with
    core := #v[sigma[0], k[0], k[1], k[2], k[3], sigma[1], s.core[6], s.core[7],
               s.core[8], s.core[9], sigma[2], k[4], k[5], k[6], k[7], sigma[3]]
    keyValid := true }

/-- The IV in its words, the counter zero, the cache zero and empty (R67). -/
def loadIv (iv : Vector Word 2) (s : State) : State :=
  { s with
    core := (((s.core.set 6 iv[0]).set 7 iv[1]).set 8 0).set 9 0
    cache := Vector.replicate 16 0
    cur := 64
    ivValid := true }

/-- The blob in the core words, the cache words and the cursor; both flags set (R92). -/
def loadBlob (b : Vector Word 33) (s : State) : State :=
  { s with
    core := blobCore b
    cache := blobCache b
    cur := (blobCursor b).extractLsb' 0 7
    keyValid := true
    ivValid := true }

end Sys2Proof.Machine
end

