-- ==== Sys2Proof/Machine/CoreFunction.lean ====
section
/-! DEFINITION. `STEP` (spec/41_core_function.md R78). -/

namespace Sys2Proof.Machine

/-- `STEP` (R78): a forced refill. -/
def execStep (s : State) : Result := requireReady .step s (.next (respond .step [] (refill s)))

end Sys2Proof.Machine
end

