-- ==== Sys2Proof/Machine/KeyIv.lean ====
section
/-! DEFINITION. `SETKEY` and `SETIV` (spec/40_key_iv_schedule.md). -/

namespace Sys2Proof.Machine

/-- `SETKEY` (R66). Legal in every state. -/
def execSetkey (k : Vector Word 8) (s : State) : Result := .next (respond .setkey [] (loadKey k s))

/-- `SETIV` (R67). Legal in every state. -/
def execSetiv (iv : Vector Word 2) (s : State) : Result := .next (respond .setiv [] (loadIv iv s))

end Sys2Proof.Machine
end

