-- ==== Sys2Proof/Machine/Keystream.lean ====
section
/-! DEFINITION. `NEXT` (spec/42_keystream_buffer.md R80). -/

namespace Sys2Proof.Machine

/-- The index of the first wholly unread word, `(cur + 3) div 4` (R80). -/
def firstUnreadWord (s : State) : Nat := (s.cur.toNat + 3) / 4

/-- `NEXT` (R80): with two unread words left, `16 - w >= 2`, the draw is words `w` and `w + 1`; else a refill comes first and
the draw is words 0 and 1 of the new block. -/
def execNext (s : State) : Result :=
  requireReady .next s
    (if h : firstUnreadWord s + 1 < 16 then .next (drawAt (firstUnreadWord s) h s)
     else .next (drawAt 0 (by decide) (refill s)))

end Sys2Proof.Machine
end

