-- ==== Sys2Proof/Machine/SaveRestore.lean ====
section
/-! DEFINITION. `GETSTATE`, `SETSTATE` and `STATUS` (spec/44_state_save_restore.md R91 to R93). -/

namespace Sys2Proof.Machine

/-- `GETSTATE` (R91): the blob; nothing is written. -/
def execGetstate (s : State) : Result := requireReady .getstate s (.next (respond .getstate (blobWords s) s))

/-- `SETSTATE` (R92): `ERR_BAD_STATE` when the cursor word exceeds 64, else the blob is loaded. Legal in every state. -/
def execSetstate (blob : Vector Word 33) (s : State) : Result :=
  if 64 < blobCursor blob then .next (raiseError .badState Op.setstate.code s)
  else .next (respond .setstate [] (loadBlob blob s))

/-- `STATUS` (R93): the status word view. Legal in every state. -/
def execStatus (s : State) : Result := .next (respond .status [statusView s] s)

end Sys2Proof.Machine
end

