-- ==== Sys2Proof/Machine/XorUnit.lean ====
section
/-! DEFINITION. `XORB` and `XORBUF` (spec/43_stream_cipher_xor.md R86, R87). -/

namespace Sys2Proof.Machine

/-- `XORB` (R86): one byte step; the output byte zero-extended to a word. -/
def execXorb (byte : Byte) (s : State) : Result :=
  requireReady .xorb s
    (match xorByte byte s with
     | some (out, s') => .next (respond .xorb [out.setWidth 32] s')
     | none => .fault .cacheAddress)

/-- `XORBUF` (R87): the byte steps of the message, the output bytes packed. With `len = 0` it consumes nothing. -/
def execXorbuf (len : BitVec 24) (pay : List Word) (s : State) : Result :=
  requireReady .xorbuf s
    (match xorBytes (messageBytes len pay) s with
     | some (out, s') => .next (respond .xorbuf (packBytes out) s')
     | none => .fault .cacheAddress)

end Sys2Proof.Machine
end

