-- ==== Sys2Proof/Machine/Dispatch.lean ====
section
/-! DEFINITION. One arm per command (spec/30_encoding.md R48). -/

namespace Sys2Proof.Machine

def exec (i : Instr) (s : State) : Host.Outcome State Fault Refusal :=
  match i with
  | .setkey k => Sys2Proof.Machine.execSetkey k s
  | .setiv iv => Sys2Proof.Machine.execSetiv iv s
  | .step => Sys2Proof.Machine.execStep s
  | .next => Sys2Proof.Machine.execNext s
  | .xorb byte => Sys2Proof.Machine.execXorb byte s
  | .xorbuf len pay => Sys2Proof.Machine.execXorbuf len pay s
  | .getstate => Sys2Proof.Machine.execGetstate s
  | .setstate blob => Sys2Proof.Machine.execSetstate blob s
  | .status => Sys2Proof.Machine.execStatus s

end Sys2Proof.Machine
end

