-- ==== Sys2Proof/Machine/Port.lean ====
section
/-! DEFINITION. The command port: how the hardware takes a packet from the words the host has sent (spec/30_encoding.md R45,
R46), what a reset or a collection of a response in between does (spec/70_reset_and_hazards.md R120, R121, R131), and what
the host may do at the port (spec/60_exceptions.md R113). -/

namespace Sys2Proof.Machine

/-- What the port has for the hardware to do next, and what is left on it afterwards. -/
inductive Fetched where
  /-- No complete packet, no reset, no collection: the hardware does nothing (R46, R131). -/
  | idle
  /-- The host collects the oldest response. -/
  | collect (rest : List PortEvent)
  /-- The block is reset; words of an incomplete packet before it are forgotten (R121). -/
  | reset (rest : List PortEvent)
  /-- A complete packet. -/
  | packet (hdr : Word) (pay : List Word) (rest : List PortEvent)
  deriving DecidableEq, Repr

/-- Take `n` more payload words behind a header, those already taken being `taken`, last one first. A collection between
the words of a packet does not disturb them. -/
def gather (hdr : Word) : Nat → List Word → List PortEvent → Fetched
  | 0, taken, events => .packet hdr taken.reverse events
  | _ + 1, _, [] => .idle
  | n + 1, taken, .word w :: events => gather hdr n (w :: taken) events
  | _ + 1, taken, .collect :: events => .collect (.word hdr :: (taken.reverse.map .word ++ events))
  | _ + 1, _, .reset :: events => .reset events

/-- The next thing to do: the first word is a header, and its `paylen` payload words follow it (R45, R46). -/
def fetch : List PortEvent → Fetched
  | [] => .idle
  | .word hdr :: events => gather hdr (paylen hdr) [] events
  | .collect :: events => .collect events
  | .reset :: events => .reset events

/-- The reset event (R120, R121): every piece of state takes its reset value, responses not yet delivered are dropped, and
what the host sends afterwards is all that is left. -/
def resetEvent (rest : List PortEvent) : State := { State.reset with input := rest }

/-- The host collects the oldest response, if there is one (R113). -/
def collectResponse (s : State) : State := { s with outbox := s.outbox.tail }

/-- The host acts at the port: the events join those not yet taken (R113). -/
def State.hostDoes (events : List PortEvent) (s : State) : State := { s with input := s.input ++ events }

/-- The host sends one packet, all its words contiguously (R113). -/
def State.hostSends (packet : List Word) (s : State) : State := s.hostDoes (packet.map .word)

end Sys2Proof.Machine
end

