-- ==== Sys2Proof/Machine/Packet.lean ====
section
/-! DEFINITION. What the hardware does with one complete packet (spec/30_encoding.md R50). -/

namespace Sys2Proof.Machine

/-- Decode the packet and run the command; a packet that is no command is answered with its error (R50, R101, R102). -/
def runPacket (hdr : Word) (pay : List Word) (s : State) : Result :=
  match decodePacket hdr pay with
  | .ok i => exec i s
  | .error .illegalOpcode => .next (raiseError .illegalOpcode (opField hdr) s)
  | .error .reservedField => .next (raiseError .reservedField (opField hdr) s)
  | .error .noHeader => .fault .packetLength
  | .error .wrongLength => .fault .packetLength

end Sys2Proof.Machine
end

