-- ==== Sys2Proof/Machine/Step.lean ====
section
/-! DEFINITION. One step: the next thing the command port has for the hardware, a whole command at a time
(spec/10_state.md R16, spec/20_memory.md R36). -/

namespace Sys2Proof.Machine

/-- One step. With no complete packet the hardware waits, and nothing changes (spec/70_reset_and_hazards.md R131). -/
def step (s : State) : Host.Outcome State Fault Refusal :=
  match fetch s.input with
  | .idle => .next s
  | .collect rest => .next (collectResponse { s with input := rest })
  | .reset rest => .next (resetEvent rest)
  | .packet hdr pay rest => runPacket hdr pay { s with input := rest }

/-- The state in which the host has sent that packet, ahead of anything it sent before (notes/assumptions/3.md). -/
def State.withFetchWord (s : State) (nbits w : Nat) : State :=
  { s with input := (tableHeader nbits w :: tablePayload nbits w).map .word ++ s.input }

end Sys2Proof.Machine
end

