-- ==== Sys2Proof/Machine/Assembler.lean ====
section
/-! DEFINITION. The pseudo-instructions and their expansions (spec/30_encoding.md R54, R55, R59), and the listing form of a
command (R53). -/

namespace Sys2Proof.Machine

/-- `XORBUF n : b0 … b(n-1)` of a byte string of at most `MAXLEN` bytes (R53, R87); the pad bytes are zero. -/
def bufferCommand (msg : List Byte) : Instr := .xorbuf (BitVec.ofNat 24 msg.length) (packBytes msg)

/-- A buffer cut, in order, into pieces of at most `MAXLEN` bytes (R54); the first argument bounds the number of cuts.
DESIGN CHOICE (notes/assumptions/12.md): full pieces of `MAXLEN` bytes with the remainder last. -/
def cutBuffer : Nat → List Byte → List (List Byte)
  | 0, msg => [msg]
  | n + 1, msg =>
    if msg.length ≤ Config.maxLen then [msg]
    else msg.take Config.maxLen :: cutBuffer n (msg.drop Config.maxLen)

/-- The pieces `ENCRYPT` cuts a buffer into: one if it fits one packet (R54), else those of notes/assumptions/12.md. -/
def encryptPieces (msg : List Byte) : List (List Byte) := cutBuffer msg.length msg

/-- `ENCRYPT n : b0 … b(n-1)`: one `XORBUF` per piece (R54). -/
def encryptCommands (msg : List Byte) : List Instr := (encryptPieces msg).map bufferCommand

/-- `DECRYPT n : c0 … c(n-1)`: "Identical to `ENCRYPT`" (R55). -/
def decryptCommands (msg : List Byte) : List Instr := encryptCommands msg

/-- `SETSEED s0 … s9`: key words, then IV words (R59, R49 (f)). -/
def setseedCommands (seed : Vector Word 10) : List Instr :=
  [.setkey #v[seed[0], seed[1], seed[2], seed[3], seed[4], seed[5], seed[6], seed[7]],
   .setiv #v[seed[8], seed[9]]]

/-! ## The listing form (R53) -/

/-- One hexadecimal digit. -/
def hexDigit (n : Nat) : Char := "0123456789ABCDEF".toList.getD n '0'

/-- A number as `digits` hexadecimal digits, most significant first. -/
def hexDigits : Nat → Nat → List Char
  | 0, _ => []
  | digits + 1, n => hexDigit (n / 16 ^ digits % 16) :: hexDigits digits n

/-- A word as eight hexadecimal digits (R53). -/
def hexWord (w : Word) : List Char := hexDigits 8 w.toNat

/-- A byte as two hexadecimal digits (R53). -/
def hexByte (b : Byte) : List Char := hexDigits 2 b.toNat

/-- A mnemonic and its operands, separated by spaces. -/
def listingLine (mnemonic : String) (operands : List (List Char)) : List Char :=
  mnemonic.toList ++ operands.flatMap fun o => ' ' :: o

/-- A command as R53 writes it in a listing: mnemonic first, operands as hexadecimal words. -/
def listing : Instr → List Char
  | .setkey k => listingLine "SETKEY" (k.toList.map hexWord)
  | .setiv iv => listingLine "SETIV" (iv.toList.map hexWord)
  | .step => listingLine "STEP" []
  | .next => listingLine "NEXT" []
  | .xorb byte => listingLine "XORB" [hexByte byte]
  | .xorbuf len pay =>
    listingLine "XORBUF" ((Nat.repr len.toNat).toList :: [':'] :: (messageBytes len pay).map hexByte)
  | .getstate => listingLine "GETSTATE" []
  | .setstate blob => listingLine "SETSTATE" (blob.toList.map hexWord)
  | .status => listingLine "STATUS" []

end Sys2Proof.Machine
end

