-- ==== Sys2Proof/Safety.lean ====
section
/-! DEFINITION. The words claims are stated in: the invariant and what a run without error is, reachable states, which
states agree on every word that has been written, what of a state and a command is public, running several commands, and
the keystream a state will give. None of it is part of the machine. -/

namespace Sys2Proof

open Sys2Proof.Machine

/-! ## The invariant -/

/-- "The invariant `cur <= 64` holds in every reachable state" (spec/10_state.md R12). -/
abbrev CursorInRange (s : Machine.State) : Prop := s.cur ≤ 64

/-- The states the hardware and its host can bring about: from reset, by steps and by what the host does at the port. -/
inductive Reachable : Machine.State → Prop where
  | reset : Reachable State.reset
  | step {s t : Machine.State} (before : Reachable s) (h : Machine.step s = .next t) : Reachable t
  | host {s : Machine.State} (before : Reachable s) (events : List PortEvent) : Reachable (s.hostDoes events)

/-- "No error occurred", over the responses not yet collected: every status byte is `OK` (spec/60_exceptions.md R107). -/
abbrev NoError (s : Machine.State) : Prop :=
  s.outbox.all (fun packet => packet.head?.any fun w => w.extractLsb' 0 8 == (0x00 : Byte)) = true

/-! ## Words never written (R22) -/

/-- Two states that agree on everything but core words the validity flags do not vouch for (spec/10_state.md R13, R22):
words 0..5 and 10..15 only matter when `key_valid` is set, words 6..9 only when `iv_valid` is. -/
structure AgreeWhereWritten (s t : Machine.State) : Prop where
  cache : s.cache = t.cache
  cur : s.cur = t.cur
  keyValid : s.keyValid = t.keyValid
  ivValid : s.ivValid = t.ivValid
  input : s.input = t.input
  outbox : s.outbox = t.outbox
  keyWords : s.keyValid = true → ∀ i : Fin 16, (i.val < 6 ∨ 9 < i.val) → s.core[i] = t.core[i]
  ivWords : s.ivValid = true → ∀ i : Fin 16, (5 < i.val ∧ i.val < 10) → s.core[i] = t.core[i]

/-! ## Public and secret (R76) -/

/-- What of a state may steer the hardware: `ready` (through the two flags) and `cur` (spec/41_core_function.md R76). -/
def publicState (s : Machine.State) : BitVec 7 × Bool × Bool := (s.cur, s.keyValid, s.ivValid)

/-- What of a command may steer the hardware: the opcode, `len`, and the cursor word of a `SETSTATE` payload (R76). -/
def publicCommand (i : Instr) : Op × BitVec 24 × Word :=
  match i with
  | .xorbuf len _ => (i.op, len, 0)
  | .setstate blob => (i.op, 0, blobCursor blob)
  | .setkey _ | .setiv _ | .step | .next | .xorb _ | .getstate | .status => (i.op, 0, 0)

/-- What of an answer an observer without the secrets sees: that it is a next state, that state's public part, how many
responses there are, and the newest response's status word and length. -/
def publicResult (r : Machine.Result) : Option ((BitVec 7 × Bool × Bool) × Nat × Option (Option Word × Nat)) :=
  match r with
  | .next t => some (publicState t, t.outbox.length, t.outbox.getLast?.map fun p => (p.head?, p.length))
  | .fault _ => none
  | .refused _ => none

/-! ## Several commands -/

/-- Commands one after another, stopping at the first that gives no next state (spec/20_memory.md R36). -/
def execAll : List Instr → Machine.State → Machine.Result
  | [], s => .next s
  | i :: is, s =>
    match exec i s with
    | .next t => execAll is t
    | .fault r => .fault r
    | .refused r => .refused r

/-- The first `n` bytes packed in response data words (spec/20_memory.md R31 (b)). -/
def dataBytes (n : Nat) (data : List Word) : List Byte := (data.flatMap wordBytes).take n

/-- The output bytes of the responses to `XORBUF` commands on the given pieces, in order. -/
def outputBytes (pieces : List (List Byte)) (responses : List (List Word)) : List Byte :=
  (List.zipWith (fun piece response => dataBytes piece.length response.tail) pieces responses).flatten

/-! ## The keystream of a state -/

/-- Byte `a` of the 64-byte view of a block, for `a < 64` (spec/20_memory.md R31 (a)). -/
def blockByte (x : Block) (a : Nat) : Byte := (cacheByte x a).getD 0

/-- Core words when the counter in them has gone on by `n` (spec/10_state.md R14). -/
def coreAt (x : Block) (n : Nat) : Block :=
  let counter := counterOf x + BitVec.ofNat 64 n
  (x.set 8 (counter.extractLsb' 0 32)).set 9 (counter.extractLsb' 32 32)

/-- The block that refill number `n` from these core words on will produce, counting from 0 (spec/41_core_function.md R77). -/
def blockAt (x : Block) (n : Nat) : Block := salsa8Block (coreAt x n)

/-- Byte `j` of the keystream from the state's position on: first the unread bytes of the cache, then block after block in
counter order (spec/00_scope.md R9, Keystream). -/
def keystreamByte (s : Machine.State) (j : Nat) : Byte :=
  if s.cur.toNat + j < 64 then blockByte s.cache (s.cur.toNat + j)
  else blockByte (blockAt s.core ((s.cur.toNat + j - 64) / 64)) ((s.cur.toNat + j - 64) % 64)

/-- How many refills `n` byte steps take: with `u = 64 - cur` unread bytes, `ceil(max(0, n - u) / 64)`
(spec/90_conflicts.md C9). -/
def refillsFor (s : Machine.State) (n : Nat) : Nat := (n - (64 - s.cur.toNat) + 63) / 64

/-- The state after `n` byte steps: the counter gone on by the refills, the cache the last block produced, the cursor past the
bytes consumed. -/
def afterBytes (s : Machine.State) (n : Nat) : Machine.State :=
  let r := refillsFor s n
  { s with
    core := coreAt s.core r
    cache := if r = 0 then s.cache else blockAt s.core (r - 1)
    cur := BitVec.ofNat 7 (s.cur.toNat + n - 64 * r) }

end Sys2Proof
end

