-- ==== Sys2Proof/Certificates/Slice0/Obligations.lean ====
section
/-! DEFINITION. The statements about this machine, each from a numbered rule of spec/ or from several of them. Two states
that are equal but for the responses not yet collected are written `{ t with outbox := [] } = { u with outbox := [] }`. -/

open Sys2Proof Sys2Proof.Machine

/-! ## Encoding -/

/-- Every well-formed command decodes from its own packet, every operand at every value (R45, R48, R49). -/
def Obligations.DecodeEncodeRoundTrip : Prop :=
  ∀ i : Instr, i.wf = true → decode (encode i) = .ok i

/-- A packet that decodes to a command is that command's one encoding: no bit of it is dropped, and the command is well
formed (R45, R48, R49, R51 (b)). -/
def Obligations.DecodedPacketIsItsEncoding : Prop :=
  ∀ (packet : List Word) (i : Instr), decode packet = .ok i → encode i = packet ∧ i.wf = true

/-- R46: the payload length is a function of the header word alone, for illegal opcodes too. -/
def Obligations.PayloadLengthOfHeader : Prop :=
  ∀ hdr : Word,
    paylen hdr =
      if hdr.extractLsb' 0 8 = (0x01 : Byte) then 8
      else if hdr.extractLsb' 0 8 = (0x02 : Byte) then 2
      else if hdr.extractLsb' 0 8 = (0x08 : Byte) then 33
      else if hdr.extractLsb' 0 8 = (0x06 : Byte) then ((hdr.extractLsb' 8 24).toNat + 3) / 4
      else 0

/-- The match and mask columns of R48's table: a packet of the right length decodes to a command of a row exactly when its
header has that row's match under that row's mask. -/
def Obligations.HeaderMatchSelectsCommand : Prop :=
  ∀ (hdr : Word) (pay : List Word), pay.length = paylen hdr →
    ((∃ k, decode (hdr :: pay) = .ok (.setkey k)) ↔ hdr &&& 0xFFFFFFFF = 0x00000001) ∧
    ((∃ iv, decode (hdr :: pay) = .ok (.setiv iv)) ↔ hdr &&& 0xFFFFFFFF = 0x00000002) ∧
    (decode (hdr :: pay) = .ok .step ↔ hdr &&& 0xFFFFFFFF = 0x00000003) ∧
    (decode (hdr :: pay) = .ok .next ↔ hdr &&& 0xFFFFFFFF = 0x00000004) ∧
    ((∃ byte, decode (hdr :: pay) = .ok (.xorb byte)) ↔ hdr &&& 0xFFFF00FF = 0x00000005) ∧
    ((∃ len, decode (hdr :: pay) = .ok (.xorbuf len pay)) ↔ hdr &&& 0x000000FF = 0x00000006) ∧
    (decode (hdr :: pay) = .ok .getstate ↔ hdr &&& 0xFFFFFFFF = 0x00000007) ∧
    ((∃ blob, decode (hdr :: pay) = .ok (.setstate blob)) ↔ hdr &&& 0xFFFFFFFF = 0x00000008) ∧
    (decode (hdr :: pay) = .ok .status ↔ hdr &&& 0xFFFFFFFF = 0x00000009)

/-- Packets written out from the spec's encodings (R48, R49; examples of R66, R67, R86, R87 and of the test vectors T6, T12). -/
def Obligations.PacketsDecodeAsTabulated : Prop :=
  decode [0x00000001, 0x03020100, 0x07060504, 0x0B0A0908, 0x0F0E0D0C, 0x13121110, 0x17161514, 0x1B1A1918, 0x1F1E1D1C] =
      .ok (.setkey #v[0x03020100, 0x07060504, 0x0B0A0908, 0x0F0E0D0C, 0x13121110, 0x17161514, 0x1B1A1918, 0x1F1E1D1C]) ∧
    decode [0x00000002, 0x03020100, 0x07060504] = .ok (.setiv #v[0x03020100, 0x07060504]) ∧
    decode [0x00000003] = .ok .step ∧
    decode [0x00000004] = .ok .next ∧
    decode [0x00004105] = .ok (.xorb 0x41) ∧
    decode [0x00000306, 0x000F0801] = .ok (.xorbuf 3 [0x000F0801]) ∧
    decode [0x00000007] = .ok .getstate ∧
    decode [0x00000009] = .ok .status ∧
    decode [0x0000010A] = .error .illegalOpcode ∧
    decode [0x00010005] = .error .reservedField

/-! ## The command port and the step -/

/-- A step runs the command its packet decodes to: the packet's words are taken off the port, and the rest is `exec` (R36,
R45, R50). -/
def Obligations.StepRunsDecodedCommand : Prop :=
  ∀ (s : State) (hdr : Word) (pay : List Word) (rest : List PortEvent) (i : Instr),
    s.input = .word hdr :: (pay.map .word ++ rest) → pay.length = paylen hdr → decode (hdr :: pay) = .ok i →
    step s = exec i { s with input := rest }

/-- R101: an opcode that selects no command is a packet by itself, is answered with `ERR_ILLEGAL_OPCODE` and the opcode
echoed, and no state changes, whatever `arg` holds. -/
def Obligations.IllegalOpcodeIsAnswered : Prop :=
  ∀ (s : State) (hdr : Word) (rest : List PortEvent),
    s.input = .word hdr :: rest →
    (hdr.extractLsb' 0 8 = (0x00 : Byte) ∨ (0x0A : Byte) ≤ hdr.extractLsb' 0 8) →
    step s = .next { s with
      input := rest
      outbox := s.outbox ++ [[0x00000001 ||| ((hdr.extractLsb' 0 8 : Byte).setWidth 32 <<< 8)]] }

/-- R102: a command with a reserved header bit set is answered with `ERR_RESERVED_FIELD`; its payload words are consumed and
no state changes. `XORBUF` cannot raise it: every header of that opcode, with its payload, is a command. -/
def Obligations.ReservedFieldIsAnswered : Prop :=
  (∀ (hdr : Word) (pay : List Word), hdr.extractLsb' 0 8 = (0x06 : Byte) → pay.length = paylen hdr →
    decode (hdr :: pay) = .ok (.xorbuf (hdr.extractLsb' 8 24) pay)) ∧
  ∀ (s : State) (hdr : Word) (pay : List Word) (rest : List PortEvent),
    s.input = .word hdr :: (pay.map .word ++ rest) → pay.length = paylen hdr →
    ((hdr.extractLsb' 0 8 ∈ [(0x01 : Byte), 0x02, 0x03, 0x04, 0x07, 0x08, 0x09] ∧ hdr.extractLsb' 8 24 ≠ (0 : BitVec 24)) ∨
      (hdr.extractLsb' 0 8 = (0x05 : Byte) ∧ hdr.extractLsb' 16 16 ≠ (0 : BitVec 16))) →
    step s = .next { s with
      input := rest
      outbox := s.outbox ++ [[0x00000002 ||| ((hdr.extractLsb' 0 8 : Byte).setWidth 32 <<< 8)]] }

/-- R50, R105, R106, R47: one response to every complete packet, behind the earlier ones, its status the first error in the
order of R50 or `OK`, the opcode echoed, the reserved bits zero; and an error response is one word and changes no state.
The premise on the cursor is the invariant of R12. -/
def Obligations.PacketIsAnsweredInCheckOrder : Prop :=
  ∀ (s : State) (hdr : Word) (pay : List Word) (rest : List PortEvent),
    CursorInRange s → s.input = .word hdr :: (pay.map .word ++ rest) → pay.length = paylen hdr →
    let op : Byte := hdr.extractLsb' 0 8
    let status : Byte :=
      if op = 0x00 ∨ 0x0A ≤ op then 0x01
      else if (op ∈ [(0x01 : Byte), 0x02, 0x03, 0x04, 0x07, 0x08, 0x09] ∧ hdr.extractLsb' 8 24 ≠ (0 : BitVec 24)) ∨
          (op = 0x05 ∧ hdr.extractLsb' 16 16 ≠ (0 : BitVec 16)) then 0x02
      else if op ∈ [(0x03 : Byte), 0x04, 0x05, 0x06, 0x07] ∧ ¬(s.keyValid = true ∧ s.ivValid = true) then 0x03
      else if op = 0x08 ∧ 64 < pay.getD 32 0 then 0x04
      else 0x00
    ∃ (t : State) (data : List Word),
      step s = .next t ∧ t.input = rest ∧
      t.outbox = s.outbox ++ [(status.setWidth 32 ||| (op.setWidth 32 <<< 8)) :: data] ∧
      (status ≠ 0x00 → data = [] ∧ t = { s with input := rest, outbox := t.outbox })

/-- R131, R46: while fewer than `1 + paylen` words of a packet have come, nothing happens. That this waiting is a step which
answers the same state, where U15 calls it stuck, and that a port with nothing on it waits the same way, is the model's
reading (notes/assumptions/8.md). -/
def Obligations.IncompletePacketHoldsThePort : Prop :=
  ∀ s : State,
    (s.input = [] → step s = .next s) ∧
    ∀ (hdr : Word) (words : List Word), s.input = .word hdr :: words.map .word → words.length < paylen hdr →
      step s = .next s

/-- R121, R120: a reset while a packet is being received (or between packets) forgets the words received, drops the responses
not yet delivered, and leaves the reset state; what the host sends after it is all that is left on the port. The core words,
which have no value after reset in the spec, are not stated. -/
def Obligations.ResetLeavesTheResetState : Prop :=
  ∀ (s : State) (received : List Word) (rest : List PortEvent),
    s.input = received.map .word ++ .reset :: rest →
    (∀ hdr ∈ received.head?, received.length < 1 + paylen hdr) →
    ∃ t : State, step s = .next t ∧ t.keyValid = false ∧ t.ivValid = false ∧ t.cur = 64 ∧
      t.cache = Vector.replicate 16 0 ∧ t.input = rest ∧ t.outbox = []

/-- What R19 gives a value after reset; the status word view is 0x00004000. Nothing waits at the port. -/
def Obligations.ResetStateValues : Prop :=
  State.reset.cache = Vector.replicate 16 0 ∧ State.reset.cur = 64 ∧ State.reset.keyValid = false ∧
    State.reset.ivValid = false ∧ statusView State.reset = 0x00004000 ∧ State.reset.input = [] ∧ State.reset.outbox = []

/-- The host may collect a response at any time, between packets or between the words of an incomplete one: the oldest
response leaves, and nothing else changes, the words received so far included (R113; notes/assumptions/4.md). -/
def Obligations.CollectingTakesTheOldestResponse : Prop :=
  ∀ (s : State) (received : List Word) (rest : List PortEvent),
    s.input = received.map .word ++ .collect :: rest →
    (∀ hdr ∈ received.head?, received.length < 1 + paylen hdr) →
    step s = .next { s with input := received.map .word ++ rest, outbox := s.outbox.tail }

/-! ## SETKEY, SETIV -/

/-- R66: the key and the constants in their words, `key_valid` set, and nothing else: IV, counter, cache, cursor and
`iv_valid` are as before. In every state. -/
def Obligations.SetkeyLoadsKeyAndConstants : Prop :=
  ∀ (s : State) (k : Vector Word 8),
    exec (.setkey k) s = .next { s with
      core := #v[0x61707865, k[0], k[1], k[2], k[3], 0x3320646E, s.core[6], s.core[7],
                 s.core[8], s.core[9], 0x79622D32, k[4], k[5], k[6], k[7], 0x6B206574]
      keyValid := true
      outbox := s.outbox ++ [[0x00000100]] }

/-- R67: the IV in its words, the counter zero, the cache zero and empty, `iv_valid` set; key, constants and `key_valid` as
before. In every state. -/
def Obligations.SetivLoadsIvAndEmptiesCache : Prop :=
  ∀ (s : State) (iv : Vector Word 2),
    exec (.setiv iv) s = .next { s with
      core := #v[s.core[0], s.core[1], s.core[2], s.core[3], s.core[4], s.core[5], iv[0], iv[1],
                 0, 0, s.core[10], s.core[11], s.core[12], s.core[13], s.core[14], s.core[15]]
      cache := Vector.replicate 16 0
      cur := 64
      ivValid := true
      outbox := s.outbox ++ [[0x00000200]] }

/-- R69: `SETKEY` then `SETIV` in any state, and the other order from reset, leave the same layout, counter 0, an empty zero
cache, and `ready`; and a `SETKEY` leaves the counter words, the cache and the cursor as they were. -/
def Obligations.KeyAndIvGiveTheSalsaLayout : Prop :=
  ∀ (s : State) (k : Vector Word 8) (iv : Vector Word 2),
    let layout : Block := #v[0x61707865, k[0], k[1], k[2], k[3], 0x3320646E, iv[0], iv[1],
                             0, 0, 0x79622D32, k[4], k[5], k[6], k[7], 0x6B206574]
    (∃ t, execAll [.setkey k, .setiv iv] s = .next t ∧ t.core = layout ∧ t.cache = Vector.replicate 16 0 ∧ t.cur = 64 ∧
      t.keyValid = true ∧ t.ivValid = true) ∧
    (∃ t, execAll [.setiv iv, .setkey k] State.reset = .next t ∧ t.core = layout ∧ t.cache = Vector.replicate 16 0 ∧
      t.cur = 64 ∧ t.keyValid = true ∧ t.ivValid = true) ∧
    (∃ t, exec (.setkey k) s = .next t ∧ t.core[8] = s.core[8] ∧ t.core[9] = s.core[9] ∧ t.cache = s.cache ∧
      t.cur = s.cur)

/-- R59: `SETSEED` of ten words is `SETKEY` of the first eight and `SETIV` of the last two; after it the state is ready, the
counter 0 and the cursor 64. -/
def Obligations.SetseedLoadsKeyThenIv : Prop :=
  ∀ (s : State) (seed : Vector Word 10),
    setseedCommands seed = [.setkey #v[seed[0], seed[1], seed[2], seed[3], seed[4], seed[5], seed[6], seed[7]],
      .setiv #v[seed[8], seed[9]]] ∧
    ∃ t, execAll (setseedCommands seed) s = .next t ∧ t.ready = true ∧ t.counter = 0 ∧ t.cur = 64 ∧
      t.core = (#v[0x61707865, seed[0], seed[1], seed[2], seed[3], 0x3320646E, seed[8], seed[9],
                   0, 0, 0x79622D32, seed[4], seed[5], seed[6], seed[7], 0x6B206574] : Block)

/-! ## The core function and STEP -/

/-- R70: the four steps of the quarter-round, each using the results of the steps before it; it maps zero words to zero words
and is a bijection on 128-bit inputs; the worked example. -/
def Obligations.QuarterRoundStepsAndBijection : Prop :=
  (∀ y0 y1 y2 y3 z0 z1 z2 z3 : Word,
    quarterRound y0 y1 y2 y3 = (z0, z1, z2, z3) →
      z1 = y1 ^^^ (y0 + y3).rotateLeft 7 ∧ z2 = y2 ^^^ (z1 + y0).rotateLeft 9 ∧
      z3 = y3 ^^^ (z2 + z1).rotateLeft 13 ∧ z0 = y0 ^^^ (z3 + z2).rotateLeft 18) ∧
  quarterRound 0 0 0 0 = (0, 0, 0, 0) ∧
  quarterRound 0x00000001 0 0 0 = (0x08008145, 0x00000080, 0x00010200, 0x20500000) ∧
  Function.Bijective fun y : Word × Word × Word × Word => quarterRound y.1 y.2.1 y.2.2.1 y.2.2.2

/-- R71 and R72: the column and the row pass apply the quarter-round to these groups of words and to no others. -/
def Obligations.RoundsUseTheirIndexGroups : Prop :=
  ∀ x : Block,
    (let y := columnRound x
     (y[0], y[4], y[8], y[12]) = quarterRound x[0] x[4] x[8] x[12] ∧
     (y[5], y[9], y[13], y[1]) = quarterRound x[5] x[9] x[13] x[1] ∧
     (y[10], y[14], y[2], y[6]) = quarterRound x[10] x[14] x[2] x[6] ∧
     (y[15], y[3], y[7], y[11]) = quarterRound x[15] x[3] x[7] x[11]) ∧
    (let y := rowRound x
     (y[0], y[1], y[2], y[3]) = quarterRound x[0] x[1] x[2] x[3] ∧
     (y[5], y[6], y[7], y[4]) = quarterRound x[5] x[6] x[7] x[4] ∧
     (y[10], y[11], y[8], y[9]) = quarterRound x[10] x[11] x[8] x[9] ∧
     (y[15], y[12], y[13], y[14]) = quarterRound x[15] x[12] x[13] x[14])

/-- R73, R74: four double-rounds, each the column pass and then the row pass, and the feed-forward; sixteen zero words give
sixteen zero words; the worked example's first and last word. -/
def Obligations.BlockIsFourDoubleRoundsAndFeedForward : Prop :=
  (∀ (x : Block) (i : Fin 16),
    (salsa8Block x)[i] =
      (rowRound (columnRound (rowRound (columnRound (rowRound (columnRound (rowRound (columnRound x))))))))[i] + x[i]) ∧
  salsa8Block (Vector.replicate 16 0) = Vector.replicate 16 0 ∧
  (salsa8Block #v[1, 0, 0, 0, 0, 0, 0, 0, 0, 0, 0, 0, 0, 0, 0, 0])[0] = 0x72E9E95A ∧
  (salsa8Block #v[1, 0, 0, 0, 0, 0, 0, 0, 0, 0, 0, 0, 0, 0, 0, 0])[15] = 0x930D4BE4

/-- R75: a refill adds one to the 64-bit counter, modulo 2^64, the carry going from `core[8]` into `core[9]`; no other core
word changes. -/
def Obligations.RefillAddsOneToTheCounter : Prop :=
  ∀ s : State,
    (refill s).counter = s.counter + 1 ∧
    (refill s).core[8] = s.core[8] + 1 ∧
    (refill s).core[9] = (if s.core[8] + 1 = 0 then s.core[9] + 1 else s.core[9]) ∧
    ∀ i : Fin 16, i.val ≠ 8 → i.val ≠ 9 → (refill s).core[i] = s.core[i]

/-- R78, R77: in a ready state `STEP` replaces the whole cache by the block of the counter value on entry, adds one to the
counter and sets the cursor to 0, whatever was unread; nothing else changes. -/
def Obligations.StepReplacesTheBlock : Prop :=
  ∀ s : State, s.keyValid = true → s.ivValid = true →
    exec .step s = .next { s with
      cache := salsa8Block s.core
      core := (s.core.set 8 (s.core[8] + 1)).set 9 (if s.core[8] + 1 = 0 then s.core[9] + 1 else s.core[9])
      cur := 0
      outbox := s.outbox ++ [[0x00000300]] }

/-- R103: `STEP`, `NEXT`, `XORB`, `XORBUF` of every length and `GETSTATE` are answered with `ERR_UNINIT` when a flag is clear,
and nothing else changes. -/
def Obligations.UninitialisedCommandsAreAnswered : Prop :=
  ∀ s : State, (s.keyValid = false ∨ s.ivValid = false) →
    exec .step s = .next { s with outbox := s.outbox ++ [[0x00000303]] } ∧
    exec .next s = .next { s with outbox := s.outbox ++ [[0x00000403]] } ∧
    (∀ byte, exec (.xorb byte) s = .next { s with outbox := s.outbox ++ [[0x00000503]] }) ∧
    (∀ len pay, exec (.xorbuf len pay) s = .next { s with outbox := s.outbox ++ [[0x00000603]] }) ∧
    exec .getstate s = .next { s with outbox := s.outbox ++ [[0x00000703]] }

/-! ## NEXT -/

/-- R80: with `w = (cur + 3) div 4` and two unread words left, `NEXT` answers with words `w` and `w + 1`, low word first, and
moves the cursor past them; else it refills and answers with words 0 and 1 of the new block. Nothing else changes. That a
cursor above 64, which no reachable state has, refills too is the model's choice (notes/assumptions/6.md). -/
def Obligations.NextDrawsTwoWords : Prop :=
  ∀ s : State, s.keyValid = true → s.ivValid = true →
    (∀ (w : Nat) (_ : w = (s.cur.toNat + 3) / 4) (_ : w + 1 < 16),
      exec .next s = .next { s with
        cur := BitVec.ofNat 7 (4 * (w + 2))
        outbox := s.outbox ++ [[0x00000400, s.cache[w], s.cache[w + 1]]] }) ∧
    (16 ≤ (s.cur.toNat + 3) / 4 + 1 →
      exec .next s = .next { s with
        cache := salsa8Block s.core
        core := (s.core.set 8 (s.core[8] + 1)).set 9 (if s.core[8] + 1 = 0 then s.core[9] + 1 else s.core[9])
        cur := 8
        outbox := s.outbox ++ [[(0x00000400 : Word), (salsa8Block s.core)[0], (salsa8Block s.core)[1]]] })

/-- R80, R31: the draw `hi : lo` of `NEXT` is the eight-byte little-endian read of the cache byte view at the address eight
below the cursor it leaves, which is a multiple of 4 (R32). That a cursor above 64, which no reachable state has, refills and
draws too is the model's choice (notes/assumptions/6.md). -/
def Obligations.DrawIsALittleEndianRead : Prop :=
  ∀ s : State, s.keyValid = true → s.ivValid = true →
    ∃ (t : State) (lo hi : Word), exec .next s = .next t ∧ t.outbox = s.outbox ++ [[0x00000400, lo, hi]] ∧
      8 ≤ t.cur.toNat ∧ t.cur.toNat % 4 = 0 ∧
      memRead t.cache (t.cur.toNat - 8) 8 = some (hi.toNat * 2 ^ 32 + lo.toNat)

/-- R31: reading the eight bytes of a draw one at a time, with `XORB` on zero bytes, gives the same bytes, lowest first, and
the same state; wherever the cursor stands at the start of a word with two words unread, or at the end of the cache. -/
def Obligations.EightZeroBytesEqualOneDraw : Prop :=
  ∀ s : State, s.keyValid = true → s.ivValid = true →
    (s.cur.toNat % 4 = 0 ∧ s.cur.toNat ≤ 56 ∨ s.cur = 64) →
    ∃ (t u : State) (lo hi : Word), exec .next s = .next t ∧ t.outbox = s.outbox ++ [[0x00000400, lo, hi]] ∧
      execAll (List.replicate 8 (.xorb 0x00)) s = .next u ∧
      u.outbox = s.outbox ++ (wordBytes lo ++ wordBytes hi).map (fun b => [0x00000500, b.setWidth 32]) ∧
      { t with outbox := [] } = { u with outbox := [] }

/-- R81: with only `NEXT` commands after `SETKEY k` and `SETIV v`, draw number `n`, from 0, is words `2 * (n mod 8)` and
`2 * (n mod 8) + 1` of the block of counter value `n div 8`. -/
def Obligations.DrawSequenceFollowsTheCounter : Prop :=
  ∀ (s : State) (k : Vector Word 8) (iv : Vector Word 2) (n : Nat),
    let block : Block := salsa8Block #v[0x61707865, k[0], k[1], k[2], k[3], 0x3320646E, iv[0], iv[1],
      BitVec.ofNat 32 (n / 8), BitVec.ofNat 32 (n / 8 / 2 ^ 32), 0x79622D32, k[4], k[5], k[6], k[7], 0x6B206574]
    ∃ t, execAll (.setkey k :: .setiv iv :: List.replicate (n + 1) .next) s = .next t ∧
      t.outbox.length = s.outbox.length + n + 3 ∧
      t.outbox.getLast? = some [0x00000400, block.toList.getD (2 * (n % 8)) 0, block.toList.getD (2 * (n % 8) + 1) 0]

/-! ## XORB, XORBUF -/

/-- R85, R86: in a ready state with unread bytes, `XORB` answers with the byte XOR the cache byte at the cursor and adds one
to the cursor; at cursor 64 it refills first. Nothing else changes. -/
def Obligations.XorbXorsTheNextByte : Prop :=
  ∀ (s : State) (byte : Byte), s.keyValid = true → s.ivValid = true →
    (∀ _ : s.cur.toNat < 64,
      exec (.xorb byte) s = .next { s with
        cur := s.cur + 1
        outbox := s.outbox ++ [[0x00000500,
          (byte ^^^ (s.cache[s.cur.toNat / 4]).extractLsb' (8 * (s.cur.toNat % 4)) 8).setWidth 32]] }) ∧
    (s.cur = 64 →
      exec (.xorb byte) s = .next { s with
        cache := salsa8Block s.core
        core := (s.core.set 8 (s.core[8] + 1)).set 9 (if s.core[8] + 1 = 0 then s.core[9] + 1 else s.core[9])
        cur := 1
        outbox := s.outbox ++ [[(0x00000500 : Word), (byte ^^^ ((salsa8Block s.core)[0]).extractLsb' 0 8).setWidth 32]] })

/-- R87, with R85 and the bound of C9: in a ready state `XORBUF` answers with `ceil4(len)` data words, byte `j < len` of which
is message byte `j` XOR byte `j` of the keystream from the state's position on, the bytes above them zero; the state has gone
on by `len` bytes: the counter by the refills that took, the cache the last block produced, the cursor past the bytes
consumed. Nothing else changes. The premise on the cursor is the invariant of R12. -/
def Obligations.XorbufXorsTheKeystream : Prop :=
  ∀ (s : State) (len : BitVec 24) (pay : List Word),
    s.keyValid = true → s.ivValid = true → CursorInRange s → pay.length = ceil4 len.toNat →
    ∃ data : List Word,
      exec (.xorbuf len pay) s = .next { afterBytes s len.toNat with outbox := s.outbox ++ [0x00000600 :: data] } ∧
      data.length = ceil4 len.toNat ∧
      (∀ j < len.toNat, byteOfWord (data.getD (j / 4) 0) (j % 4) =
        byteOfWord (pay.getD (j / 4) 0) (j % 4) ^^^ keystreamByte s j) ∧
      ∀ j, len.toNat ≤ j → j < 4 * data.length → byteOfWord (data.getD (j / 4) 0) (j % 4) = 0

/-- R87, corner case (a): a buffer of no bytes consumes no keystream and refills nothing, at any cursor. -/
def Obligations.XorbufOfNoBytesConsumesNothing : Prop :=
  ∀ s : State, s.keyValid = true → s.ivValid = true →
    exec (.xorbuf 0 []) s = .next { s with outbox := s.outbox ++ [[0x00000600]] }

/-- R89: `XORBUF` of `A ++ B` gives the same output bytes and the same final state as `XORBUF` of `A` and then of `B`, and
`XORBUF` of one byte the same as `XORB` of it; wherever `A ++ B` fits one packet. -/
def Obligations.CuttingABufferChangesNothing : Prop :=
  ∀ (s : State) (a b : List Byte) (byte : Byte), s.keyValid = true → s.ivValid = true → CursorInRange s →
    (a ++ b).length ≤ Config.maxLen →
    (∃ (t u : State) (x y z : List Word),
      exec (bufferCommand (a ++ b)) s = .next t ∧ t.outbox = s.outbox ++ [0x00000600 :: x] ∧
      execAll [bufferCommand a, bufferCommand b] s = .next u ∧
      u.outbox = s.outbox ++ [0x00000600 :: y, 0x00000600 :: z] ∧
      { t with outbox := [] } = { u with outbox := [] } ∧
      dataBytes (a ++ b).length x = dataBytes a.length y ++ dataBytes b.length z) ∧
    (∃ (t u : State) (out : Word),
      exec (bufferCommand [byte]) s = .next t ∧ t.outbox = s.outbox ++ [[0x00000600, out]] ∧
      exec (.xorb byte) s = .next u ∧ u.outbox = s.outbox ++ [[0x00000500, out]] ∧
      { t with outbox := [] } = { u with outbox := [] })

/-- R88: an instance in an equal state, given the output of the first, returns the message, for every buffer. -/
def Obligations.DecryptionUndoesEncryption : Prop :=
  ∀ (s : State) (message : List Byte), s.keyValid = true → s.ivValid = true → CursorInRange s →
    message.length ≤ Config.maxLen →
    ∃ (t u : State) (x y : List Word),
      exec (bufferCommand message) s = .next t ∧ t.outbox = s.outbox ++ [0x00000600 :: x] ∧
      exec (bufferCommand (dataBytes message.length x)) s = .next u ∧ u.outbox = s.outbox ++ [0x00000600 :: y] ∧
      dataBytes message.length y = message ∧
      { t with outbox := [] } = { u with outbox := [] }

/-- R54: `ENCRYPT` of a buffer of any length takes pieces of at most `MAXLEN` bytes whose concatenation is the buffer, and
gives the same bytes and the same final state as one `XORB` per byte; `DECRYPT` has the same expansion (R55). Where a buffer
longer than `MAXLEN` is cut is the model's choice (notes/assumptions/12.md); nothing stated here rests on it. -/
def Obligations.EncryptGivesTheBytesOfSingleXors : Prop :=
  ∀ (s : State) (message : List Byte), s.keyValid = true → s.ivValid = true → CursorInRange s →
    (encryptPieces message).flatten = message ∧ (∀ piece ∈ encryptPieces message, piece.length ≤ Config.maxLen) ∧
    (message.length ≤ Config.maxLen → encryptCommands message = [bufferCommand message]) ∧
    decryptCommands message = encryptCommands message ∧
    ∃ (t u : State) (responses : List (List Word)) (out : List Byte),
      execAll (encryptCommands message) s = .next t ∧ t.outbox = s.outbox ++ responses ∧
      execAll (message.map .xorb) s = .next u ∧
      u.outbox = s.outbox ++ out.map (fun b => [0x00000500, b.setWidth 32]) ∧
      outputBytes (encryptPieces message) responses = out ∧
      { t with outbox := [] } = { u with outbox := [] }

/-- R16: after a `SETIV` in a state with the key loaded and `n` bytes consumed by `XORBUF` commands of any cut,
`counter = ceil(n / 64)`, and `cur = n - 64 * (counter - 1)`, or 64 when `n = 0`. -/
def Obligations.StreamPositionCountsBytes : Prop :=
  ∀ (s : State) (iv : Vector Word 2) (pieces : List (List Byte)), s.keyValid = true →
    (∀ piece ∈ pieces, piece.length ≤ Config.maxLen) →
    ∃ t, execAll (.setiv iv :: pieces.map bufferCommand) s = .next t ∧
      t.counter = BitVec.ofNat 64 ((pieces.flatten.length + 63) / 64) ∧
      t.cur.toNat + 64 * ((pieces.flatten.length + 63) / 64) = pieces.flatten.length + 64

/-! ## GETSTATE, SETSTATE, STATUS -/

/-- R91, R90: in a ready state `GETSTATE` answers with the core words, the cache words and the cursor as a word; no state
changes. -/
def Obligations.GetstateReturnsTheBlob : Prop :=
  ∀ s : State, s.keyValid = true → s.ivValid = true →
    exec .getstate s = .next { s with
      outbox := s.outbox ++ [0x00000700 :: (s.core.toList ++ s.cache.toList ++ [s.cur.setWidth 32])] }

/-- R92, R104: a blob whose cursor word, as an unsigned number, is at most 64 is loaded whole and sets both flags; one whose
cursor word exceeds 64 is answered with `ERR_BAD_STATE` and changes no state. In every state. -/
def Obligations.SetstateLoadsOrRefusesTheBlob : Prop :=
  ∀ (s : State) (blob : Vector Word 33),
    ((blob[32]).toNat ≤ 64 → ∃ t : State, exec (.setstate blob) s = .next t ∧
      (∀ i : Fin 16, t.core[i] = blob[i.val] ∧ t.cache[i] = blob[16 + i.val]) ∧
      t.cur.toNat = (blob[32]).toNat ∧ t.keyValid = true ∧ t.ivValid = true ∧
      t.input = s.input ∧ t.outbox = s.outbox ++ [[0x00000800]]) ∧
    (64 < (blob[32]).toNat →
      exec (.setstate blob) s = .next { s with outbox := s.outbox ++ [[0x00000804]] })

/-- R94: the blob of a ready state, loaded into any instance, puts core, cache, cursor and flags into the state it was read
in; and `GETSTATE` right after a successful `SETSTATE` returns the blob. -/
def Obligations.SaveAndRestoreRoundTrip : Prop :=
  (∀ s u : State, s.keyValid = true → s.ivValid = true → CursorInRange s →
    ∃ (t v : State) (blob : Vector Word 33),
      exec .getstate s = .next t ∧ t.outbox = s.outbox ++ [0x00000700 :: blob.toList] ∧
      exec (.setstate blob) u = .next v ∧
      v = { s with input := u.input, outbox := u.outbox ++ [[0x00000800]] }) ∧
  (∀ (s : State) (blob : Vector Word 33), (blob[32]).toNat ≤ 64 →
    ∃ t, execAll [.setstate blob, .getstate] s = .next t ∧
      t.outbox = s.outbox ++ [[0x00000800], 0x00000700 :: blob.toList])

/-- R93, R15: in every state `STATUS` answers with one word whose bit 0 is `key_valid`, bit 1 `iv_valid`, bits 14:8 `cur` and
the rest zero; no state changes. -/
def Obligations.StatusReturnsTheFlagsAndCursor : Prop :=
  ∀ s : State, ∃ view : Word,
    exec .status s = .next { s with outbox := s.outbox ++ [[0x00000900, view]] } ∧
    view.getLsbD 0 = s.keyValid ∧ view.getLsbD 1 = s.ivValid ∧ view.extractLsb' 8 7 = s.cur ∧
    view.extractLsb' 2 6 = 0 ∧ view.extractLsb' 15 17 = 0

/-! ## The whole machine -/

/-- R12: "The invariant `cur <= 64` holds in every reachable state": every step keeps it, from every state that has it, a
reset among the steps. -/
def Obligations.EveryStepKeepsTheCursorInRange : Prop :=
  ∀ s t : State, CursorInRange s → step s = .next t → CursorInRange t

/-- R12: reset has the invariant. -/
def Obligations.ResetHasTheCursorInRange : Prop := CursorInRange State.reset

/-- From a state with the cursor in range no step stops: every one ends in a next state. For a complete packet that is R36,
R109, R114; for a port with no complete packet it is the model's reading that waiting answers the same state
(notes/assumptions/8.md), for a collection of a response its choice (notes/assumptions/4.md), for a reset R121
(notes/assumptions/5.md). -/
def Obligations.NoStepStops : Prop :=
  ∀ s : State, CursorInRange s → ∃ t, step s = .next t

/-- Every state the hardware and its host can bring about from reset has the cursor in range (R12), and no step from it stops,
on the same grounds as in `NoStepStops`: for a port with no complete packet the model's reading (notes/assumptions/8.md), for
a collection its choice (notes/assumptions/4.md), for a reset R121 (notes/assumptions/5.md). -/
def Obligations.NoReachableStateStops : Prop :=
  ∀ s : State, Reachable s → CursorInRange s ∧ ∃ t, step s = .next t

/-- R22: no rule reads a core word that has not been written. Two states that agree but for words the validity flags do not
vouch for go on agreeing, with the same responses, and stop alike: what such a word holds is never seen. -/
def Obligations.UnwrittenCoreWordsAreNeverRead : Prop :=
  ∀ s t : State, AgreeWhereWritten s t →
    (∀ s', step s = .next s' → ∃ t', step t = .next t' ∧ AgreeWhereWritten s' t') ∧
    (∀ f, step s = .fault f → step t = .fault f)

/-- R76: what steers the hardware is public. Commands of the same opcode, `len` and cursor word, in states of the same `cur`,
flags and number of responses, end with the same `cur`, flags and number of responses, and with a newest response of the same
status word and length, whatever `core`, `cache`, key, IV and message hold. -/
def Obligations.ControlDependsOnPublicValuesOnly : Prop :=
  ∀ (i j : Instr) (s t : State), i.wf = true → j.wf = true → publicCommand i = publicCommand j →
    publicState s = publicState t → s.outbox.length = t.outbox.length →
    publicResult (exec i s) = publicResult (exec j t)

/-- R13: `SETKEY` sets `key_valid`, `SETIV` sets `iv_valid`, `SETSTATE` sets both when it is not refused, nothing else writes
them and no command clears one. -/
def Obligations.OnlyLoadsSetTheValidityFlags : Prop :=
  ∀ (i : Instr) (s t : State), exec i s = .next t →
    (s.keyValid = true → t.keyValid = true) ∧ (s.ivValid = true → t.ivValid = true) ∧
    (t.keyValid ≠ s.keyValid → i.op = .setkey ∨ i.op = .setstate) ∧
    (t.ivValid ≠ s.ivValid → i.op = .setiv ∨ i.op = .setstate) ∧
    (i.op = .setkey → t.keyValid = true) ∧ (i.op = .setiv → t.ivValid = true) ∧
    (∀ blob : Vector Word 33, i = .setstate blob → (blob[32]).toNat ≤ 64 → t.keyValid = true ∧ t.ivValid = true)

/-- The "Written by" column of R10, and R11: constants and key are changed only by `SETKEY` and `SETSTATE`, the IV only by
`SETIV` and `SETSTATE`, the counter and the cache only by `SETIV`, `SETSTATE` and the commands that may refill; and no command
touches what the host has sent and the port has not taken yet, or an earlier response. -/
def Obligations.OnlyTheirWritersChangeRegisters : Prop :=
  ∀ (i : Instr) (s t : State), exec i s = .next t →
    (∀ n : Fin 16, n.val < 6 ∨ 9 < n.val → t.core[n] ≠ s.core[n] → i.op = .setkey ∨ i.op = .setstate) ∧
    (t.core[6] ≠ s.core[6] ∨ t.core[7] ≠ s.core[7] → i.op = .setiv ∨ i.op = .setstate) ∧
    (t.counter ≠ s.counter ∨ t.cache ≠ s.cache ∨ t.cur ≠ s.cur →
      i.op ∈ [.setiv, .setstate, .step, .next, .xorb, .xorbuf]) ∧
    t.input = s.input ∧ ∃ response, t.outbox = s.outbox ++ [response]
end

