-- ==== Sys2Proof/Laws/Decode.lean ====
section
/-! SUPPORT. The small lemmas of the encoding: what the header fields of an encoded header are, that the opcode bytes and the
opcodes stand one to one, and what the payload checks say. -/

namespace Sys2Proof

/-! ## Header fields (R45) -/

@[simp] theorem opField_header (o : Op) (arg : BitVec 24) : opField (header o arg) = o.code := by
  ext i hi
  interval_cases i <;> simp [opField, header]

@[simp] theorem argField_header (o : Op) (arg : BitVec 24) : argField (header o arg) = arg := by
  ext i hi
  interval_cases i <;> simp [argField, header]

@[simp] theorem byteField_header (o : Op) (byte : Byte) : byteField (header o (byte.setWidth 24)) = byte := by
  ext i hi
  interval_cases i <;> simp [byteField, header]

/-- A header word is its opcode and its `arg`, and nothing else. -/
theorem header_of_fields {hdr : Word} {o : Op} (h : opField hdr = o.code) : header o (argField hdr) = hdr := by
  ext i hi
  have h0 : ∀ j (_ : j < 8), o.code[j] = hdr[j] := by
    intro j hj
    simp [← h, opField, BitVec.getLsbD_eq_getElem (show j < 32 by omega)]
  interval_cases i <;> simp [header, argField, h0]

/-! ## The opcode map (R48) -/

@[simp] theorem Op.ofCode_code (o : Op) : Op.ofCode o.code = some o := by
  cases o <;> decide

/-- An opcode byte selects the command whose code it is. -/
theorem Op.code_of_ofCode {b : Byte} {o : Op} (h : Op.ofCode b = some o) : o.code = b := by
  simpa using List.find?_some h

/-- The bytes that select no command are 0x00 and 0x0A to 0xFF (R51 (a)). -/
theorem Op.ofCode_eq_none {b : Byte} : Op.ofCode b = none ↔ b = 0x00 ∨ 0x0A ≤ b := by
  revert b
  decide +kernel

/-- A header of format B is free of reserved bits. -/
theorem reserved_header (i : Instr) : header i.op i.arg &&& i.op.reserved = 0 := by
  cases i with
  | xorb byte =>
    ext j hj
    interval_cases j <;> simp [header, Instr.op, Instr.arg, Op.reserved, Op.code]
  | xorbuf len pay => simp [Instr.op, Op.reserved]
  | _ => simp only [Instr.op, Instr.arg]; decide

/-! ## Payload checks (R46) -/

theorem hasLength_iff {α : Type} (l : List α) (n : Nat) : hasLength l n = true ↔ l.length = n := by
  induction l generalizing n with
  | nil => cases n <;> simp [hasLength]
  | cons a as ih => cases n <;> simp [hasLength, ih]

@[simp] theorem takeVector_toList {n : Nat} (v : Vector Word n) : takeVector n v.toList = some v := by
  simp only [takeVector, Vector.length_toList, dif_pos, Option.some.injEq]
  cases v
  rfl

theorem toList_of_takeVector {n : Nat} {pay : List Word} {v : Vector Word n} (h : takeVector n pay = some v) :
    v.toList = pay := by
  unfold takeVector at h
  split at h
  · simp only [Option.some.injEq] at h
    subst h
    rfl
  · cases h

/-- The payload a header asks for is what `paylen` says, for the headers of all commands. -/
theorem paylen_header (o : Op) (arg : BitVec 24) : paylen (header o arg) = o.payloadWords (header o arg) := by
  simp [paylen]

end Sys2Proof
end

