-- ==== Sys2Proof/Laws/State.lean ====
section
/-! SUPPORT. What each named update of the state leaves in each field, true by rfl, so that no later proof unfolds an update. -/

namespace Sys2Proof.Machine

/-! ## send -/

@[simp] theorem send_core (packet : List Word) (s : State) : (send packet s).core = s.core := rfl
@[simp] theorem send_cache (packet : List Word) (s : State) : (send packet s).cache = s.cache := rfl
@[simp] theorem send_cur (packet : List Word) (s : State) : (send packet s).cur = s.cur := rfl
@[simp] theorem send_keyValid (packet : List Word) (s : State) : (send packet s).keyValid = s.keyValid := rfl
@[simp] theorem send_ivValid (packet : List Word) (s : State) : (send packet s).ivValid = s.ivValid := rfl
@[simp] theorem send_input (packet : List Word) (s : State) : (send packet s).input = s.input := rfl
@[simp] theorem send_outbox (packet : List Word) (s : State) : (send packet s).outbox = s.outbox ++ [packet] := rfl

/-! ## respond -/

@[simp] theorem respond_core (o : Op) (data : List Word) (s : State) : (respond o data s).core = s.core := rfl
@[simp] theorem respond_cache (o : Op) (data : List Word) (s : State) : (respond o data s).cache = s.cache := rfl
@[simp] theorem respond_cur (o : Op) (data : List Word) (s : State) : (respond o data s).cur = s.cur := rfl
@[simp] theorem respond_keyValid (o : Op) (data : List Word) (s : State) : (respond o data s).keyValid = s.keyValid := rfl
@[simp] theorem respond_ivValid (o : Op) (data : List Word) (s : State) : (respond o data s).ivValid = s.ivValid := rfl
@[simp] theorem respond_input (o : Op) (data : List Word) (s : State) : (respond o data s).input = s.input := rfl
@[simp] theorem respond_outbox (o : Op) (data : List Word) (s : State) : (respond o data s).outbox = s.outbox ++ [responseWord 0x00 o.code :: data] := rfl

/-! ## raiseError -/

@[simp] theorem raiseError_core (e : ErrorCode) (echo : Byte) (s : State) : (raiseError e echo s).core = s.core := rfl
@[simp] theorem raiseError_cache (e : ErrorCode) (echo : Byte) (s : State) : (raiseError e echo s).cache = s.cache := rfl
@[simp] theorem raiseError_cur (e : ErrorCode) (echo : Byte) (s : State) : (raiseError e echo s).cur = s.cur := rfl
@[simp] theorem raiseError_keyValid (e : ErrorCode) (echo : Byte) (s : State) : (raiseError e echo s).keyValid = s.keyValid := rfl
@[simp] theorem raiseError_ivValid (e : ErrorCode) (echo : Byte) (s : State) : (raiseError e echo s).ivValid = s.ivValid := rfl
@[simp] theorem raiseError_input (e : ErrorCode) (echo : Byte) (s : State) : (raiseError e echo s).input = s.input := rfl
@[simp] theorem raiseError_outbox (e : ErrorCode) (echo : Byte) (s : State) : (raiseError e echo s).outbox = s.outbox ++ [[responseWord e.code echo]] := rfl

/-! ## refill -/

@[simp] theorem refill_core (s : State) : (refill s).core = incrementCounter s.core := rfl
@[simp] theorem refill_cache (s : State) : (refill s).cache = salsa8Block s.core := rfl
@[simp] theorem refill_cur (s : State) : (refill s).cur = 0 := rfl
@[simp] theorem refill_keyValid (s : State) : (refill s).keyValid = s.keyValid := rfl
@[simp] theorem refill_ivValid (s : State) : (refill s).ivValid = s.ivValid := rfl
@[simp] theorem refill_input (s : State) : (refill s).input = s.input := rfl
@[simp] theorem refill_outbox (s : State) : (refill s).outbox = s.outbox := rfl

/-! ## drawAt -/

@[simp] theorem drawAt_core (w : Nat) (h : w + 1 < 16) (s : State) : (drawAt w h s).core = s.core := rfl
@[simp] theorem drawAt_cache (w : Nat) (h : w + 1 < 16) (s : State) : (drawAt w h s).cache = s.cache := rfl
@[simp] theorem drawAt_cur (w : Nat) (h : w + 1 < 16) (s : State) : (drawAt w h s).cur = BitVec.ofNat 7 (4 * (w + 2)) := rfl
@[simp] theorem drawAt_keyValid (w : Nat) (h : w + 1 < 16) (s : State) : (drawAt w h s).keyValid = s.keyValid := rfl
@[simp] theorem drawAt_ivValid (w : Nat) (h : w + 1 < 16) (s : State) : (drawAt w h s).ivValid = s.ivValid := rfl
@[simp] theorem drawAt_input (w : Nat) (h : w + 1 < 16) (s : State) : (drawAt w h s).input = s.input := rfl
@[simp] theorem drawAt_outbox (w : Nat) (h : w + 1 < 16) (s : State) : (drawAt w h s).outbox = s.outbox ++ [responseWord 0x00 Op.next.code :: [s.cache[w], s.cache[w + 1]]] := rfl

/-! ## loadKey -/

@[simp] theorem loadKey_cache (k : Vector Word 8) (s : State) : (loadKey k s).cache = s.cache := rfl
@[simp] theorem loadKey_cur (k : Vector Word 8) (s : State) : (loadKey k s).cur = s.cur := rfl
@[simp] theorem loadKey_keyValid (k : Vector Word 8) (s : State) : (loadKey k s).keyValid = true := rfl
@[simp] theorem loadKey_ivValid (k : Vector Word 8) (s : State) : (loadKey k s).ivValid = s.ivValid := rfl
@[simp] theorem loadKey_input (k : Vector Word 8) (s : State) : (loadKey k s).input = s.input := rfl
@[simp] theorem loadKey_outbox (k : Vector Word 8) (s : State) : (loadKey k s).outbox = s.outbox := rfl

/-! ## loadIv -/

@[simp] theorem loadIv_core (iv : Vector Word 2) (s : State) : (loadIv iv s).core = (((s.core.set 6 iv[0]).set 7 iv[1]).set 8 0).set 9 0 := rfl
@[simp] theorem loadIv_cache (iv : Vector Word 2) (s : State) : (loadIv iv s).cache = Vector.replicate 16 0 := rfl
@[simp] theorem loadIv_cur (iv : Vector Word 2) (s : State) : (loadIv iv s).cur = 64 := rfl
@[simp] theorem loadIv_keyValid (iv : Vector Word 2) (s : State) : (loadIv iv s).keyValid = s.keyValid := rfl
@[simp] theorem loadIv_ivValid (iv : Vector Word 2) (s : State) : (loadIv iv s).ivValid = true := rfl
@[simp] theorem loadIv_input (iv : Vector Word 2) (s : State) : (loadIv iv s).input = s.input := rfl
@[simp] theorem loadIv_outbox (iv : Vector Word 2) (s : State) : (loadIv iv s).outbox = s.outbox := rfl

/-! ## loadBlob -/

@[simp] theorem loadBlob_core (b : Vector Word 33) (s : State) : (loadBlob b s).core = blobCore b := rfl
@[simp] theorem loadBlob_cache (b : Vector Word 33) (s : State) : (loadBlob b s).cache = blobCache b := rfl
@[simp] theorem loadBlob_cur (b : Vector Word 33) (s : State) : (loadBlob b s).cur = (blobCursor b).extractLsb' 0 7 := rfl
@[simp] theorem loadBlob_keyValid (b : Vector Word 33) (s : State) : (loadBlob b s).keyValid = true := rfl
@[simp] theorem loadBlob_ivValid (b : Vector Word 33) (s : State) : (loadBlob b s).ivValid = true := rfl
@[simp] theorem loadBlob_input (b : Vector Word 33) (s : State) : (loadBlob b s).input = s.input := rfl
@[simp] theorem loadBlob_outbox (b : Vector Word 33) (s : State) : (loadBlob b s).outbox = s.outbox := rfl

/-! ## collectResponse -/

@[simp] theorem collectResponse_core (s : State) : (collectResponse s).core = s.core := rfl
@[simp] theorem collectResponse_cache (s : State) : (collectResponse s).cache = s.cache := rfl
@[simp] theorem collectResponse_cur (s : State) : (collectResponse s).cur = s.cur := rfl
@[simp] theorem collectResponse_keyValid (s : State) : (collectResponse s).keyValid = s.keyValid := rfl
@[simp] theorem collectResponse_ivValid (s : State) : (collectResponse s).ivValid = s.ivValid := rfl
@[simp] theorem collectResponse_input (s : State) : (collectResponse s).input = s.input := rfl
@[simp] theorem collectResponse_outbox (s : State) : (collectResponse s).outbox = s.outbox.tail := rfl

/-! ## resetEvent -/

@[simp] theorem resetEvent_core (rest : List PortEvent) : (resetEvent rest).core = Vector.replicate 16 Config.coreWordAtReset := rfl
@[simp] theorem resetEvent_cache (rest : List PortEvent) : (resetEvent rest).cache = Vector.replicate 16 0 := rfl
@[simp] theorem resetEvent_cur (rest : List PortEvent) : (resetEvent rest).cur = 64 := rfl
@[simp] theorem resetEvent_keyValid (rest : List PortEvent) : (resetEvent rest).keyValid = false := rfl
@[simp] theorem resetEvent_ivValid (rest : List PortEvent) : (resetEvent rest).ivValid = false := rfl
@[simp] theorem resetEvent_input (rest : List PortEvent) : (resetEvent rest).input = rest := rfl
@[simp] theorem resetEvent_outbox (rest : List PortEvent) : (resetEvent rest).outbox = [] := rfl

/-! ## hostDoes -/

@[simp] theorem hostDoes_core (events : List PortEvent) (s : State) : (s.hostDoes events).core = s.core := rfl
@[simp] theorem hostDoes_cache (events : List PortEvent) (s : State) : (s.hostDoes events).cache = s.cache := rfl
@[simp] theorem hostDoes_cur (events : List PortEvent) (s : State) : (s.hostDoes events).cur = s.cur := rfl
@[simp] theorem hostDoes_keyValid (events : List PortEvent) (s : State) : (s.hostDoes events).keyValid = s.keyValid := rfl
@[simp] theorem hostDoes_ivValid (events : List PortEvent) (s : State) : (s.hostDoes events).ivValid = s.ivValid := rfl
@[simp] theorem hostDoes_input (events : List PortEvent) (s : State) : (s.hostDoes events).input = s.input ++ events := rfl
@[simp] theorem hostDoes_outbox (events : List PortEvent) (s : State) : (s.hostDoes events).outbox = s.outbox := rfl

end Sys2Proof.Machine
end

