-- ==== Sys2Proof/Laws/Ops.lean ====
section
/-! SUPPORT. What each shared operation can do, said once: the guard on `ready`, the cache byte view, the counter, the byte
step and its repetition, and the packing of bytes. -/

namespace Sys2Proof.Machine

/-! ## The guard (R103) -/

theorem ready_iff (s : State) : s.ready = true ↔ s.keyValid = true ∧ s.ivValid = true := by
  simp [State.ready]

theorem requireReady_of_ready {o : Op} {s : State} {body : Result} (hk : s.keyValid = true) (hi : s.ivValid = true) :
    requireReady o s body = body := by
  simp [requireReady, State.ready, hk, hi]

theorem requireReady_of_not_ready {o : Op} {s : State} {body : Result} (h : s.keyValid = false ∨ s.ivValid = false) :
    requireReady o s body = .next (raiseError .uninit o.code s) := by
  rcases h with h | h <;> simp [requireReady, State.ready, h]

/-- A guarded command that answers a next state either raised `ERR_UNINIT` or was ready and ran. -/
theorem requireReady_next {o : Op} {s t : State} {body : Result} (h : requireReady o s body = .next t) :
    (s.ready = false ∧ t = raiseError .uninit o.code s) ∨ (s.ready = true ∧ body = .next t) := by
  unfold requireReady at h
  split at h
  · exact .inr ⟨‹_›, h⟩
  · next hr =>
    simp only [Host.Outcome.next.injEq] at h
    exact .inl ⟨by simpa using hr, h.symm⟩

/-! ## The cache byte view (R30, R31) -/

theorem cacheByte_of_lt {x : Block} {a : Nat} (h : a < 64) :
    cacheByte x a = some (byteOfWord x[a / 4] (a % 4)) := by
  have h' : a / 4 < 16 := by omega
  simp [cacheByte, h']

theorem cacheByte_of_ge {x : Block} {a : Nat} (h : 64 ≤ a) : cacheByte x a = none := by
  have h' : 16 ≤ a / 4 := by omega
  simp [cacheByte, h']

theorem littleEndian_isSome {x : Block} {n a : Nat} (h : a + n ≤ 64) : (littleEndian x a n).isSome = true := by
  induction n generalizing a with
  | zero => rfl
  | succ n ih =>
    obtain ⟨r, hr⟩ := Option.isSome_iff_exists.mp (ih (a := a + 1) (by omega))
    simp [littleEndian, cacheByte_of_lt (show a < 64 by omega), hr]

/-- `MemRead(a, n)` is defined exactly for `a + n <= 64` (R8). -/
theorem memRead_isSome_iff {x : Block} {a n : Nat} : (memRead x a n).isSome = true ↔ a + n ≤ 64 := by
  unfold memRead
  split
  · simp [littleEndian_isSome, *]
  · simp [*]

/-- `CacheByte(a)` is `MemRead(a, 1)` (R8). -/
theorem memRead_one (x : Block) (a : Nat) : memRead x a 1 = (cacheByte x a).map BitVec.toNat := by
  by_cases h : a < 64
  · simp [memRead, littleEndian, cacheByte_of_lt h, show a + 1 ≤ 64 by omega]
  · simp [memRead, cacheByte_of_ge (show 64 ≤ a by omega), show ¬a + 1 ≤ 64 by omega]

theorem blockByte_of_lt {x : Block} {a : Nat} (h : a < 64) : blockByte x a = byteOfWord x[a / 4] (a % 4) := by
  simp [blockByte, cacheByte_of_lt h]

/-! ## The counter (R14, R75) -/

theorem incrementCounter_other {x : Block} {i : Nat} (hi : i < 16) (h8 : i ≠ 8) (h9 : i ≠ 9) :
    (incrementCounter x)[i] = x[i] := by
  simp [incrementCounter, h8.symm, h9.symm]

theorem counterOf_toNat (x : Block) : (counterOf x).toNat = x[9].toNat * 2 ^ 32 + x[8].toNat := by
  simp [counterOf]
  omega

theorem incrementCounter_low (x : Block) : (incrementCounter x)[8] = x[8] + 1 := by
  simp [incrementCounter]

theorem incrementCounter_high (x : Block) :
    (incrementCounter x)[9] = if x[8] + 1 = 0 then x[9] + 1 else x[9] := by
  simp [incrementCounter]

/-! ## The byte step (R85) -/

theorem cur_toNat_lt (s : State) : s.cur.toNat < 128 := s.cur.isLt

/-- With unread bytes, `XorByte` reads the byte at the cursor and moves it by one; nothing else changes. -/
theorem xorByte_unread {b : Byte} {s : State} (h : s.cur.toNat < 64) :
    xorByte b s = some (b ^^^ byteOfWord s.cache[s.cur.toNat / 4] (s.cur.toNat % 4), { s with cur := s.cur + 1 }) := by
  have h64 : s.cur ≠ 64 := fun e => by simp [e] at h
  simp only [xorByte, if_neg h64, cacheByte_of_lt h, Option.map_some]

/-- With the cache empty, `XorByte` refills and reads byte 0 of the new block. -/
theorem xorByte_empty {b : Byte} {s : State} (h : s.cur = 64) :
    xorByte b s = some (b ^^^ byteOfWord (salsa8Block s.core)[0] 0, { refill s with cur := 1 }) := by
  simp [xorByte, h, cacheByte_of_lt]

/-- Outside the view there is no byte to read. -/
theorem xorByte_outside {b : Byte} {s : State} (h : 64 < s.cur.toNat) : xorByte b s = none := by
  have h64 : s.cur ≠ 64 := fun e => by simp [e] at h
  simp only [xorByte, if_neg h64, cacheByte_of_ge (Nat.le_of_lt h), Option.map_none]

/-- What one byte step can do: everything but cursor, cache and counter words is kept, and the cursor ends in 1..64. -/
theorem xorByte_some {b o : Byte} {s t : State} (h : xorByte b s = some (o, t)) :
    (t.cur.toNat ≤ 64 ∧ t.keyValid = s.keyValid ∧ t.ivValid = s.ivValid ∧ t.input = s.input ∧ t.outbox = s.outbox) ∧
      ∀ i (_ : i < 16), i ≠ 8 → i ≠ 9 → t.core[i] = s.core[i] := by
  by_cases hlt : s.cur.toNat < 64
  · rw [xorByte_unread hlt] at h
    obtain ⟨-, rfl⟩ := by simpa using h
    refine ⟨⟨?_, rfl, rfl, rfl, rfl⟩, fun i hi _ _ => rfl⟩
    simp only [BitVec.toNat_add, BitVec.toNat_ofNat]
    omega
  · by_cases he : s.cur = 64
    · rw [xorByte_empty he] at h
      obtain ⟨-, rfl⟩ := by simpa using h
      exact ⟨⟨show (1 : BitVec 7).toNat ≤ 64 by decide, rfl, rfl, rfl, rfl⟩, fun i hi h8 h9 => incrementCounter_other hi h8 h9⟩
    · have : s.cur.toNat ≠ 64 := fun e => he (BitVec.eq_of_toNat_eq e)
      rw [xorByte_outside (by omega)] at h
      cases h

/-- A byte step succeeds exactly where the cursor is in range. -/
theorem xorByte_isSome {b : Byte} {s : State} (h : s.cur.toNat ≤ 64) : ∃ o t, xorByte b s = some (o, t) := by
  by_cases hlt : s.cur.toNat < 64
  · exact ⟨_, _, xorByte_unread hlt⟩
  · exact ⟨_, _, xorByte_empty (BitVec.eq_of_toNat_eq (by simp; omega))⟩

/-! ## Many byte steps (R87) -/

@[simp] theorem xorBytes_nil (s : State) : xorBytes [] s = some ([], s) := rfl

theorem xorBytes_cons {b o : Byte} {bs os : List Byte} {s t u : State}
    (h : xorByte b s = some (o, t)) (h' : xorBytes bs t = some (os, u)) : xorBytes (b :: bs) s = some (o :: os, u) := by
  simp [xorBytes, h, h']

/-- Byte steps that succeed: the first one, then the others. -/
theorem xorBytes_cons_some {b : Byte} {bs out : List Byte} {s u : State} (h : xorBytes (b :: bs) s = some (out, u)) :
    ∃ o os t, xorByte b s = some (o, t) ∧ xorBytes bs t = some (os, u) ∧ out = o :: os := by
  simp only [xorBytes] at h
  split at h
  · cases h
  · split at h
    · cases h
    · obtain ⟨rfl, rfl⟩ := by simpa using h
      exact ⟨_, _, _, ‹_›, ‹_›, rfl⟩

/-- From a cursor in range the byte steps of any message succeed. -/
theorem xorBytes_isSome (bs : List Byte) {s : State} (h : s.cur.toNat ≤ 64) : ∃ out t, xorBytes bs s = some (out, t) := by
  induction bs generalizing s with
  | nil => exact ⟨_, _, rfl⟩
  | cons b bs ih =>
    obtain ⟨o, t, h1⟩ := xorByte_isSome (b := b) h
    obtain ⟨os, u, h2⟩ := ih (xorByte_some h1).1.1
    exact ⟨_, _, xorBytes_cons h1 h2⟩

/-- What many byte steps can do: as many bytes out as in, and everything kept that one byte step keeps. -/
theorem xorBytes_some {bs out : List Byte} {s t : State} (h : xorBytes bs s = some (out, t)) :
    out.length = bs.length ∧ t.keyValid = s.keyValid ∧ t.ivValid = s.ivValid ∧ t.input = s.input ∧
      t.outbox = s.outbox ∧ (s.cur.toNat ≤ 64 → t.cur.toNat ≤ 64) ∧
      ∀ i (_ : i < 16), i ≠ 8 → i ≠ 9 → t.core[i] = s.core[i] := by
  induction bs generalizing s out with
  | nil => 
    simp only [xorBytes_nil, Option.some.injEq, Prod.mk.injEq] at h
    obtain ⟨rfl, rfl⟩ := h
    simp
  | cons b bs ih =>
    obtain ⟨o, os, u, h1, h2, rfl⟩ := xorBytes_cons_some h
    obtain ⟨⟨hc, hk, hi, hin, hout⟩, hcore⟩ := xorByte_some h1
    obtain ⟨hl, hk', hi', hin', hout', hc', hcore'⟩ := ih h2
    refine ⟨by simp [hl], hk'.trans hk, hi'.trans hi, hin'.trans hin, hout'.trans hout, fun _ => hc' hc, ?_⟩
    intro i h16 h8 h9
    rw [hcore' i h16 h8 h9, hcore i h16 h8 h9]

/-- Byte steps one after another (R89). -/
theorem xorBytes_append {a b x y : List Byte} {s t u : State}
    (h : xorBytes a s = some (x, t)) (h' : xorBytes b t = some (y, u)) : xorBytes (a ++ b) s = some (x ++ y, u) := by
  induction a generalizing s x with
  | nil =>
    simp only [xorBytes_nil, Option.some.injEq, Prod.mk.injEq] at h
    obtain ⟨rfl, rfl⟩ := h
    simpa using h'
  | cons c cs ih =>
    obtain ⟨o, os, v, h1, h2, rfl⟩ := xorBytes_cons_some h
    exact xorBytes_cons h1 (ih h2)

/-! ## Packing bytes (R31 (b)) -/

theorem wordBytes_packWord (a b c d : Byte) : wordBytes (packWord a b c d) = [a, b, c, d] := by
  simp only [wordBytes, byteOfWord, packWord, List.cons.injEq, and_true]
  refine ⟨?_, ?_, ?_, ?_⟩ <;> (ext i hi; interval_cases i <;> simp)

/-- The bytes packed in words come out again, with zero bytes behind them (R47, R87). -/
theorem flatMap_packBytes (bs : List Byte) :
    (packBytes bs).flatMap wordBytes = bs ++ List.replicate (4 * ceil4 bs.length - bs.length) 0 := by
  induction bs using packBytes.induct with
  | case1 => simp [packBytes, ceil4]
  | case2 a => simp [packBytes, wordBytes_packWord, ceil4, List.replicate]
  | case3 a b => simp [packBytes, wordBytes_packWord, ceil4, List.replicate]
  | case4 a b c => simp [packBytes, wordBytes_packWord, ceil4]
  | case5 a b c d rest ih =>
    have h : 4 * ceil4 (a :: b :: c :: d :: rest).length - (a :: b :: c :: d :: rest).length =
        4 * ceil4 rest.length - rest.length := by
      simp only [ceil4, List.length_cons]; omega
    rw [h]
    simp [packBytes, wordBytes_packWord, ih]

theorem take_packBytes (bs : List Byte) : ((packBytes bs).flatMap wordBytes).take bs.length = bs := by
  simp [flatMap_packBytes]

theorem length_packBytes (bs : List Byte) : (packBytes bs).length = ceil4 bs.length := by
  induction bs using packBytes.induct with
  | case1 => simp [packBytes, ceil4]
  | case2 a => simp [packBytes, ceil4]
  | case3 a b => simp [packBytes, ceil4]
  | case4 a b c => simp [packBytes, ceil4]
  | case5 a b c d rest ih => simp only [packBytes, List.length_cons, ih, ceil4]; omega

theorem length_flatMap_wordBytes (ws : List Word) : (ws.flatMap wordBytes).length = 4 * ws.length := by
  induction ws with
  | nil => rfl
  | cons w ws ih => simp only [List.flatMap_cons, List.length_append, ih, List.length_cons, wordBytes, List.length_nil]; omega

/-- Byte `j` of a list of words is byte `j mod 4` of word `j div 4` (R31 (b), R49 (d)). -/
theorem getD_flatMap_wordBytes (ws : List Word) (j : Nat) (h : j < 4 * ws.length) :
    (ws.flatMap wordBytes).getD j 0 = byteOfWord (ws.getD (j / 4) 0) (j % 4) := by
  induction ws generalizing j with
  | nil => simp at h
  | cons w ws ih =>
    match j, h with
    | 0, _ => rfl
    | 1, _ => rfl
    | 2, _ => rfl
    | 3, _ => rfl
    | j + 4, h =>
      have h1 : (j + 4) / 4 = j / 4 + 1 := by omega
      have h2 : (j + 4) % 4 = j % 4 := by omega
      have := ih j (by simp at h; omega)
      rw [h1, h2]
      simpa [wordBytes] using this

end Sys2Proof.Machine
end

