-- ==== Sys2Proof/Laws/Keystream.lean ====
section
/-! SUPPORT. The byte steps of a message in closed form: the output is the message XOR the keystream from the state's position
on, and the state has gone on by that many bytes (Sys2Proof/Safety.lean, `keystreamByte`, `afterBytes`). -/

namespace Sys2Proof.Machine

/-! ## Core words when the counter has gone on -/

theorem counterOf_low (x : Block) : (counterOf x).extractLsb' 0 32 = x[8] := by
  apply BitVec.eq_of_toNat_eq
  rw [BitVec.extractLsb'_toNat, counterOf_toNat, Nat.shiftRight_zero]
  have h8 := x[8].isLt
  generalize x[9].toNat = a at *
  generalize x[8].toNat = b at *
  omega

theorem counterOf_high (x : Block) : (counterOf x).extractLsb' 32 32 = x[9] := by
  apply BitVec.eq_of_toNat_eq
  rw [BitVec.extractLsb'_toNat, counterOf_toNat, Nat.shiftRight_eq_div_pow]
  have h9 := x[9].isLt
  have h8 := x[8].isLt
  generalize x[9].toNat = a at *
  generalize x[8].toNat = b at *
  omega

theorem coreAt_zero (x : Block) : coreAt x 0 = x := by
  have hz : counterOf x + BitVec.ofNat 64 0 = counterOf x := by simp
  apply Vector.ext
  intro i hi
  simp only [coreAt, hz, counterOf_low, counterOf_high, Vector.getElem_set]
  split
  · subst i; rfl
  · split
    · subst i; rfl
    · rfl

/-- The words a carry leaves: two core states with the same other words and counters that differ by one (R75). -/
theorem coreAt_of_counter {x y : Block} (hc : counterOf y = counterOf x + 1)
    (ho : ∀ i (_ : i < 16), i ≠ 8 → i ≠ 9 → y[i] = x[i]) (n : Nat) : coreAt y n = coreAt x (n + 1) := by
  have h : counterOf y + BitVec.ofNat 64 n = counterOf x + BitVec.ofNat 64 (n + 1) := by
    rw [hc, BitVec.add_assoc, BitVec.ofNat_add, BitVec.add_comm (1 : BitVec 64)]
    rfl
  simp only [coreAt, h]
  clear h
  apply Vector.ext
  intro i hi
  simp only [Vector.getElem_set]
  split
  · rfl
  · split
    · rfl
    · exact ho i hi (by omega) (by omega)

/-! ## The state after some bytes -/

@[simp] theorem afterBytes_core (s : State) (n : Nat) : (afterBytes s n).core = coreAt s.core (refillsFor s n) := rfl
@[simp] theorem afterBytes_keyValid (s : State) (n : Nat) : (afterBytes s n).keyValid = s.keyValid := rfl
@[simp] theorem afterBytes_ivValid (s : State) (n : Nat) : (afterBytes s n).ivValid = s.ivValid := rfl
@[simp] theorem afterBytes_input (s : State) (n : Nat) : (afterBytes s n).input = s.input := rfl
@[simp] theorem afterBytes_outbox (s : State) (n : Nat) : (afterBytes s n).outbox = s.outbox := rfl

/-- Neither the keystream nor the refills to come depend on the responses. -/
theorem keystreamByte_respond (o : Op) (data : List Word) (s : State) (j : Nat) :
    keystreamByte (respond o data s) j = keystreamByte s j := rfl

theorem afterBytes_zero (s : State) : afterBytes s 0 = s := by
  have h : refillsFor s 0 = 0 := by simp [refillsFor]
  simp [afterBytes, h, coreAt_zero]

end Sys2Proof.Machine
end

