-- ==== Sys2Proof/Laws/PerInstr.lean ====
section
/-! SUPPORT. What holds of every command, one lemma per constructor. Framing: the packet of a well-formed command has just the
length its own header announces, so that the command port takes it whole (spec/30_encoding.md R46, R52). -/

namespace Sys2Proof.Laws.Framing

/-- A well-formed command's payload has the length its header announces. -/
def Statement (i : Instr) : Prop := i.wf = true → i.payload.length = paylen (header i.op i.arg)

theorem setkey (k : Vector Word 8) : Statement (.setkey k) := fun _ => by
  simp [Instr.payload, Instr.op, paylen, Op.payloadWords]

theorem setiv (iv : Vector Word 2) : Statement (.setiv iv) := fun _ => by
  simp [Instr.payload, Instr.op, paylen, Op.payloadWords]

theorem step : Statement .step := fun _ => by decide

theorem next : Statement .next := fun _ => by decide

theorem xorb (byte : Byte) : Statement (.xorb byte) := fun _ => by
  simp [Instr.payload, Instr.op, paylen, Op.payloadWords]

theorem xorbuf (len : BitVec 24) (pay : List Word) : Statement (.xorbuf len pay) := fun h => by
  simpa [Instr.payload, Instr.op, Instr.arg, paylen, Op.payloadWords, Instr.wf] using h

theorem getstate : Statement .getstate := fun _ => by decide

theorem setstate (blob : Vector Word 33) : Statement (.setstate blob) := fun _ => by
  simp [Instr.payload, Instr.op, paylen, Op.payloadWords]

theorem status : Statement .status := fun _ => by decide

end Sys2Proof.Laws.Framing
end

