-- ==== Sys2Proof/Laws/Port.lean ====
section
/-! SUPPORT. What the command port hands over: a complete packet when all its words are there, nothing while they are not,
and what a step can do, said once. -/

namespace Sys2Proof.Machine

/-- Payload words that are all there make the packet complete. -/
theorem gather_complete (hdr : Word) (taken pay : List Word) (rest : List PortEvent) :
    gather hdr pay.length taken (pay.map .word ++ rest) = .packet hdr (taken.reverse ++ pay) rest := by
  induction pay generalizing taken with
  | nil => cases rest <;> simp [gather]
  | cons w ws ih => simp [gather, ih]

/-- With payload words still missing the port is idle. -/
theorem gather_incomplete (hdr : Word) (n : Nat) (taken words : List Word) (h : words.length < n) :
    gather hdr n taken (words.map .word) = .idle := by
  induction words generalizing n taken with
  | nil => cases n with
    | zero => simp at h
    | succ n => rfl
  | cons w ws ih => cases n with
    | zero => simp at h
    | succ n => exact ih n (w :: taken) (by simpa using h)

/-- A reset behind an incomplete packet is what is taken, and the words before it are forgotten. -/
theorem gather_reset (hdr : Word) (n : Nat) (taken words : List Word) (rest : List PortEvent) (h : words.length < n) :
    gather hdr n taken (words.map .word ++ .reset :: rest) = .reset rest := by
  induction words generalizing n taken with
  | nil => cases n with
    | zero => simp at h
    | succ n => rfl
  | cons w ws ih => cases n with
    | zero => simp at h
    | succ n => exact ih n (w :: taken) (by simpa using h)

/-- A collection behind an incomplete packet is what is taken, and the words before it stay. -/
theorem gather_collect (hdr : Word) (n : Nat) (taken words : List Word) (rest : List PortEvent) (h : words.length < n) :
    gather hdr n taken (words.map .word ++ .collect :: rest) =
      .collect (.word hdr :: ((taken.reverse ++ words).map .word ++ rest)) := by
  induction words generalizing n taken with
  | nil => cases n with
    | zero => simp at h
    | succ n => simp [gather]
  | cons w ws ih => cases n with
    | zero => simp at h
    | succ n =>
      have := ih n (w :: taken) (by simpa using h)
      simpa [gather] using this

/-- The port hands over a header with the payload words it has taken and as many more as were asked for. -/
theorem gather_packet_length {hdr h : Word} {n : Nat} {taken pay : List Word} {events rest : List PortEvent}
    (hg : gather hdr n taken events = .packet h pay rest) : h = hdr ∧ pay.length = taken.length + n := by
  induction events generalizing n taken with
  | nil => cases n with
    | zero =>
      simp only [gather, Fetched.packet.injEq] at hg
      obtain ⟨rfl, rfl, rfl⟩ := hg
      simp
    | succ n => cases hg
  | cons e es ih => cases n with
    | zero =>
      simp only [gather, Fetched.packet.injEq] at hg
      obtain ⟨rfl, rfl, rfl⟩ := hg
      simp
    | succ n => cases e with
      | word w =>
        obtain ⟨rfl, hl⟩ := ih hg
        exact ⟨rfl, by simp at hl; omega⟩
      | collect => cases hg
      | reset => cases hg

/-- A packet the port hands over has just the payload its header asks for (R46). -/
theorem fetch_packet_length {hdr : Word} {pay : List Word} {events rest : List PortEvent}
    (h : fetch events = .packet hdr pay rest) : pay.length = paylen hdr := by
  cases events with
  | nil => cases h
  | cons e es => cases e with
    | word w =>
      obtain ⟨rfl, hl⟩ := gather_packet_length h
      simpa using hl
    | collect => cases h
    | reset => cases h

/-- A packet whose words are all at the port is taken whole (R45, R46). -/
theorem fetch_complete (hdr : Word) (pay : List Word) (rest : List PortEvent) (h : pay.length = paylen hdr) :
    fetch (.word hdr :: (pay.map .word ++ rest)) = .packet hdr pay rest := by
  simp [fetch, ← h, gather_complete]

/-- What a step that answers a next state did: it waited, the host collected a response, the block was reset, or it ran one
packet of the right length. -/
theorem step_cases {s t : State} (h : step s = .next t) :
    (fetch s.input = .idle ∧ t = s) ∨
    (∃ rest, fetch s.input = .collect rest ∧ t = collectResponse { s with input := rest }) ∨
    (∃ rest, fetch s.input = .reset rest ∧ t = resetEvent rest) ∨
    (∃ hdr pay rest, fetch s.input = .packet hdr pay rest ∧ pay.length = paylen hdr ∧
      runPacket hdr pay { s with input := rest } = .next t) := by
  unfold step at h
  split at h
  · simp only [Host.Outcome.next.injEq] at h
    exact .inl ⟨‹_›, h.symm⟩
  · simp only [Host.Outcome.next.injEq] at h
    exact .inr (.inl ⟨_, ‹_›, h.symm⟩)
  · simp only [Host.Outcome.next.injEq] at h
    exact .inr (.inr (.inl ⟨_, ‹_›, h.symm⟩))
  · exact .inr (.inr (.inr ⟨_, _, _, ‹_›, fetch_packet_length ‹_›, h⟩))

/-- What running a packet can do: run the command it decodes to, or answer one of the two decoding errors. -/
theorem runPacket_cases {hdr : Word} {pay : List Word} {s t : State} (h : runPacket hdr pay s = .next t) :
    (∃ i, decodePacket hdr pay = .ok i ∧ exec i s = .next t) ∨
    (decodePacket hdr pay = .error .illegalOpcode ∧ t = raiseError .illegalOpcode (opField hdr) s) ∨
    (decodePacket hdr pay = .error .reservedField ∧ t = raiseError .reservedField (opField hdr) s) := by
  unfold runPacket at h
  split at h
  · exact .inl ⟨_, ‹_›, h⟩
  · simp only [Host.Outcome.next.injEq] at h
    exact .inr (.inl ⟨‹_›, h.symm⟩)
  · simp only [Host.Outcome.next.injEq] at h
    exact .inr (.inr ⟨‹_›, h.symm⟩)
  · cases h
  · cases h

end Sys2Proof.Machine
end

