-- ==== Sys2Proof/Tests/Slice0.lean ====
section
/-! SUPPORT. The model's own tests. Expected words are those of the spec's encodings, worked examples and test vectors
(spec/95_test_vectors.md, T1 to T18, and the examples of the rules), never the model's own answer. Then, for each statement
with hypotheses, a concrete state and operands that meet them. -/

namespace Sys2Proof.Tests

open Sys2Proof.Machine

/-! ## WellFormed: the ill-formed are refused -/

theorem test_xorbuf_short_payload_ill_formed : (Instr.xorbuf 1 []).wf = false := by decide
theorem test_xorbuf_long_payload_ill_formed : (Instr.xorbuf 4 [0, 0]).wf = false := by decide

/-! ## Decoding: words written out from R45, R48, R49 -/

theorem test_decode_setkey : decode [0x00000001, 0x03020100, 0x07060504, 0x0B0A0908, 0x0F0E0D0C, 0x13121110, 0x17161514,
    0x1B1A1918, 0x1F1E1D1C] = .ok (.setkey #v[0x03020100, 0x07060504, 0x0B0A0908, 0x0F0E0D0C, 0x13121110, 0x17161514,
    0x1B1A1918, 0x1F1E1D1C]) := by rfl
theorem test_decode_setiv : decode [0x00000002, 0x03020100, 0x07060504] = .ok (.setiv #v[0x03020100, 0x07060504]) := by rfl
theorem test_decode_step : decode [0x00000003] = .ok .step := by rfl
theorem test_decode_next : decode [0x00000004] = .ok .next := by rfl
theorem test_decode_xorb : decode [0x00004105] = .ok (.xorb 0x41) := by rfl
theorem test_decode_xorbuf : decode [0x00000606, 0xD6CFC8C1, 0x0000E4DD] = .ok (.xorbuf 6 [0xD6CFC8C1, 0x0000E4DD]) := by rfl
theorem test_decode_getstate : decode [0x00000007] = .ok .getstate := by rfl
theorem test_decode_setstate : decode (0x00000008 :: (List.replicate 32 0 ++ [0x00000040])) =
    .ok (.setstate ((Vector.replicate 33 0).set 32 0x00000040)) := by rfl
theorem test_decode_status : decode [0x00000009] = .ok .status := by rfl

/-- The rejections of T18. -/
theorem test_decode_rejects : decode [0x00000000] = .error .illegalOpcode ∧ decode [0xFFFFFFFF] = .error .illegalOpcode ∧
    decode [0x0000010A] = .error .illegalOpcode ∧ decode [0x00000103] = .error .reservedField ∧
    decode [0x00010005] = .error .reservedField ∧ decode [0x00000102, 1, 2] = .error .reservedField ∧
    decode [0x00000002, 1] = .error .wrongLength ∧ decode [] = .error .noHeader :=
  ⟨rfl, rfl, rfl, rfl, rfl, rfl, rfl, rfl⟩

/-- The match and mask columns of spec/opcode_table.json. -/
theorem test_opcode_table : Op.all.map (fun o => (o.matchWord, o.mask)) =
    [(0x00000001, 0xFFFFFFFF), (0x00000002, 0xFFFFFFFF), (0x00000003, 0xFFFFFFFF), (0x00000004, 0xFFFFFFFF),
     (0x00000005, 0xFFFF00FF), (0x00000006, 0x000000FF), (0x00000007, 0xFFFFFFFF), (0x00000008, 0xFFFFFFFF),
     (0x00000009, 0xFFFFFFFF)] := by decide

/-- No two rows of the table overlap. -/
theorem test_opcode_rows_disjoint : Op.all.Pairwise fun a b => a.matchWord &&& 0xFF ≠ b.matchWord &&& 0xFF := by decide

/-- Payload lengths of R46 and R52: `SETIV` 2, `SETKEY` 8, `SETSTATE` 33, `XORBUF` of 5 bytes 2, an illegal header 0. -/
theorem test_paylen : paylen 0x00000002 = 2 ∧ paylen 0x00000001 = 8 ∧ paylen 0x00000008 = 33 ∧ paylen 0x00000506 = 2 ∧
    paylen 0xFFFFFFFF = 0 := by decide

theorem test_table_words : decodeTableWord 32 0x00000006 = some (.xorbuf 0 []) ∧
    decodeTableWord 32 0x00000506 = some (.xorbuf 5 [0, 0]) ∧ decodeTableWord 32 0x00000003 = some .step :=
  ⟨rfl, rfl, rfl⟩

/-! ## The core function (T1, T2, T3, T4, T5) -/

theorem test_quarterRound_overflow : quarterRound 0xFFFFFFFF 0xFFFFFFFF 0xFFFFFFFF 0xFFFFFFFF =
    (0xF8038143, 0x00000080, 0xFFFF01FF, 0x1FB00000) := by decide
theorem test_quarterRound : quarterRound 0xE7E8C006 0xC4F9417D 0x6479B4B2 0x68C67137 =
    (0xE876D72B, 0x9361DFD5, 0xF1460244, 0x948541A3) := by decide
theorem test_rowRound : rowRound #v[1, 0, 0, 0, 1, 0, 0, 0, 1, 0, 0, 0, 1, 0, 0, 0] =
    #v[0x08008145, 0x00000080, 0x00010200, 0x20500000, 0x20100001, 0x00048044, 0x00000080, 0x00010000,
       0x00000001, 0x00002000, 0x80040000, 0x00000000, 0x00000001, 0x00000200, 0x00402000, 0x88000100] := by decide +kernel
theorem test_columnRound : columnRound #v[1, 1, 1, 1, 0, 0, 0, 0, 0, 0, 0, 0, 0, 0, 0, 0] =
    #v[0x08008145, 0x20100001, 0x00000001, 0x00000001, 0x00000080, 0x00048044, 0x00002000, 0x00000200,
       0x00010200, 0x00000080, 0x80040000, 0x00402000, 0x20500000, 0x00010000, 0x00000000, 0x88000100] := by decide +kernel
theorem test_doubleRound : doubleRound #v[1, 0, 0, 0, 0, 0, 0, 0, 0, 0, 0, 0, 0, 0, 0, 0] =
    #v[0x8186A22D, 0x0040A284, 0x82479210, 0x06929051, 0x08000090, 0x02402200, 0x00004000, 0x00800000,
       0x00010200, 0x20400000, 0x08008104, 0x00000000, 0x20500000, 0xA0000040, 0x0008180A, 0x612A8020] := by decide +kernel
theorem test_salsa8Block : salsa8Block #v[1, 0, 0, 0, 0, 0, 0, 0, 0, 0, 0, 0, 0, 0, 0, 0] =
    #v[0x72E9E95A, 0x04699A37, 0xBFB11EB3, 0x0602A2C1, 0xDBF13A35, 0x0D7A354E, 0xF112CE59, 0x1FD868AD,
       0x27A5D9C1, 0xAC70F0E6, 0x1312C6AA, 0xF3310C13, 0xD09B0450, 0x4984E0F9, 0x48108636, 0x930D4BE4] := by decide +kernel

/-! ## Small states -/

/-- A ready state with these core words, cache words and cursor. -/
def at_ (core cache : Block) (cur : BitVec 7) : State :=
  { State.reset with core := core, cache := cache, cur := cur, keyValid := true, ivValid := true }

/-- The core words of T7: key `K`, IV `V`. -/
def coreKV (counter : Word) : Block :=
  #v[0x61707865, 0x03020100, 0x07060504, 0x0B0A0908, 0x0F0E0D0C, 0x3320646E, 0x03020100, 0x07060504,
     counter, 0x00000000, 0x79622D32, 0x13121110, 0x17161514, 0x1B1A1918, 0x1F1E1D1C, 0x6B206574]

/-- The block `B0` of T7. -/
def blockB0 : Block :=
  #v[0x9A5A306F, 0x8A5FDA55, 0x72E3A779, 0x32B55D13, 0x74655CD0, 0xA22326DE, 0x954DDB3E, 0xD6CB6250,
     0xC124938D, 0x7F7460DB, 0xD2D91367, 0xA746C4F9, 0x5183BA43, 0x06CCC7E9, 0xCE4D114A, 0x565CDE38]

/-- After `SETKEY K`, `SETIV V` and a block produced, the cursor at `cur`. -/
def withB0 (cur : BitVec 7) : State := at_ (coreKV 1) blockB0 cur

/-- What a next state's newest response is, and its cursor and counter. -/
def answer (r : Result) : Option (List Word × BitVec 7 × BitVec 64) :=
  match r with
  | .next t => t.outbox.getLast?.map fun p => (p, t.cur, t.counter)
  | .fault _ => none
  | .refused _ => none

/-- The core words of a next state. -/
def coreOf (r : Result) : Option Block :=
  match r with
  | .next t => some t.core
  | .fault _ => none
  | .refused _ => none

/-- The cache words of a next state. -/
def cacheOf (r : Result) : Option Block :=
  match r with
  | .next t => some t.cache
  | .fault _ => none
  | .refused _ => none

/-- R8: defined only for `addr + n <= 64`, a read of no bytes too; R31: the eight bytes at 4 of `B0`. -/
theorem test_memRead : memRead blockB0 64 0 = some 0 ∧ memRead blockB0 65 0 = none ∧ memRead blockB0 57 8 = none ∧
    memRead blockB0 4 8 = some 0x72E3A7798A5FDA55 := by decide +kernel

/-! ## The commands -/

/-- T17: an all-zero key in mid-stream; the IV words, the counter and the cursor stay. -/
theorem test_setkey_midstream : coreOf (exec (.setkey (Vector.replicate 8 0)) (withB0 8)) =
    some #v[0x61707865, 0, 0, 0, 0, 0x3320646E, 0x03020100, 0x07060504, 1, 0, 0x79622D32, 0, 0, 0, 0, 0x6B206574] := by decide
theorem test_setkey_response : answer (exec (.setkey (Vector.replicate 8 0)) (withB0 8)) = some ([0x00000100], 8, 1) := by decide

/-- R67's example: the IV loaded over a used stream; counter 0, cache empty and zero. -/
theorem test_setiv : answer (exec (.setiv #v[0x03020100, 0x07060504]) (withB0 8)) = some ([0x00000200], 64, 0) ∧
    cacheOf (exec (.setiv #v[0x03020100, 0x07060504]) (withB0 8)) = some (Vector.replicate 16 0) := by decide

/-- T7: the block of counter 0. -/
theorem test_step_block0 : cacheOf (exec .step (at_ (coreKV 0) (Vector.replicate 16 0) 64)) = some blockB0 := by decide +kernel
/-- T9: the carry into the high counter word. -/
theorem test_step_carry : answer (exec .step (at_ (coreKV 0xFFFFFFFF) (Vector.replicate 16 0) 64)) =
    some ([0x00000300], 0, 0x0000000100000000) := by decide +kernel

/-- P3 step 12: at cursor 3 the rest of word 0 is skipped. -/
theorem test_next_skips_partial_word : answer (exec .next (withB0 3)) = some ([0x00000400, 0x8A5FDA55, 0x72E3A779], 12, 1) := by decide
/-- T16, cursor 57: a refill first; block `B1`. -/
theorem test_next_refills : answer (exec .next (withB0 57)) = some ([0x00000400, 0xBE68A126, 0x65CF92AF], 8, 2) := by decide +kernel

/-- P3 step 20: the low byte of word 15. -/
theorem test_xorb : answer (exec (.xorb 0x00) (withB0 60)) = some ([0x00000500, 0x00000038], 61, 1) := by decide
/-- T16: the lazy refill, byte 0 of `B1`. -/
theorem test_xorb_refills : answer (exec (.xorb 0x00) (withB0 64)) = some ([0x00000500, 0x00000026], 1, 2) := by decide +kernel

/-- R87's example: three bytes, the high byte of the response zero; and the pad bytes of T12 ignored. -/
theorem test_xorbuf_pad : answer (exec (.xorbuf 3 [0x000F0801]) (withB0 0)) = some ([0x00000600, 0x0055386E], 3, 1) ∧
    answer (exec (.xorbuf 1 [0xFFFFFF41]) (withB0 0)) = some ([0x00000600, 0x0000002E], 1, 1) := by decide
/-- P2 step 5: six bytes from the end of block 0, over the refill. -/
theorem test_xorbuf_refills : answer (exec (.xorbuf 6 [0xD6CFC8C1, 0x0000E4DD]) (withB0 64)) =
    some ([0x00000600, 0x68A769E7, 0x00007672], 6, 2) := by decide +kernel

/-- R91: the blob begins with sigma word 0 and ends with the cursor. -/
theorem test_getstate : (answer (exec .getstate (withB0 8))).map (fun a => (a.1.length, a.1.getD 1 0, a.1.getD 17 0, a.1.getD 33 0)) =
    some (34, 0x61707865, 0x9A5A306F, 0x00000008) := by decide

/-- P3 step 26: cursor word 65. -/
theorem test_setstate_bad_cursor : answer (exec (.setstate ((Vector.replicate 33 0).set 32 65)) (withB0 16)) =
    some ([0x00000804], 16, 1) := by decide
theorem test_setstate_positions : coreOf (exec (.setstate ((Vector.replicate 33 0).set 15 7)) State.reset) =
    some ((Vector.replicate 16 0).set 15 7) ∧
    cacheOf (exec (.setstate ((Vector.replicate 33 0).set 16 9)) State.reset) = some ((Vector.replicate 16 0).set 0 9) := by decide

/-- R93: directly after reset, and after one `NEXT` from a seeded state. -/
theorem test_status : (answer (exec .status State.reset)).map (·.1) = some [0x00000900, 0x00004000] ∧
    (answer (exec .status (withB0 8))).map (·.1) = some [0x00000900, 0x00000803] := by decide

/-! ## The port and the step -/

/-- T18, directly after reset: `XORBUF 2` is `ERR_UNINIT` and its payload word is consumed; what follows is a header. -/
theorem test_step_consumes_payload : step { State.reset with
      input := [.word 0x00000206, .word 0x0000AAAA, .word 0x00000009] } =
    .next { State.reset with input := [.word 0x00000009], outbox := [[0x00000603]] } := by rfl

/-- The first step after reset runs the table's word: `STATUS`. -/
theorem test_withFetchWord : step (State.reset.withFetchWord 32 0x00000009) = exec .status State.reset := by rfl

/-- R121: the words of an incomplete packet are forgotten at reset, and so is a response not yet delivered. -/
theorem test_reset_forgets : step { withB0 8 with
      input := [.word 0x00000002, .word 5, .reset, .word 0x00000009], outbox := [[0x00000300]] } =
    .next { State.reset with input := [.word 0x00000009] } := by rfl

/-- R53: a command as a listing shows it (P2 step 3). -/
theorem test_listing : listing (.xorbuf 3 [0x000F0801]) = "XORBUF 3 : 01 08 0F".toList := by decide +kernel

/-! ## Witnesses: states and operands that meet the hypotheses of the statements -/

theorem witness_DecodeEncodeRoundTrip : (Instr.xorbuf 5 [1, 2]).wf = true ∧ (Instr.xorbuf 0 []).wf = true ∧
    (Instr.xorb 0xFF).wf = true := by decide

theorem witness_DecodedPacketIsItsEncoding : decode [0x00000506, 1, 2] = .ok (.xorbuf 5 [1, 2]) := by rfl

theorem witness_HeaderMatchSelectsCommand : [(1 : Word), 2].length = paylen 0x00000002 ∧ ([] : List Word).length = paylen 0x0000000A := by
  decide

theorem witness_StepRunsDecodedCommand : ∃ s : State, s.input = .word 0x00000002 :: (([1, 2] : List Word).map .word ++ [.reset]) ∧
    [(1 : Word), 2].length = paylen 0x00000002 ∧ decode [0x00000002, 1, 2] = .ok (.setiv #v[1, 2]) :=
  ⟨{ State.reset with input := [.word 0x00000002, .word 1, .word 2, .reset] }, rfl, rfl, rfl⟩

theorem witness_IllegalOpcodeIsAnswered : ∃ s : State, s.input = [.word 0xFFFFFF0A] ∧
    (0x0A : Byte) ≤ (0xFFFFFF0A : Word).extractLsb' 0 8 ∧ (0x00000100 : Word).extractLsb' 0 8 = (0x00 : Byte) :=
  ⟨{ State.reset with input := [.word 0xFFFFFF0A] }, rfl, by decide, by decide⟩

/-- All headers of the statement's two forms with a reserved bit set: the lowest bit and the highest. -/
theorem witness_ReservedFieldIsAnswered : ∃ s t : State,
    s.input = .word 0x00000102 :: (([1, 2] : List Word).map .word ++ []) ∧ [(1 : Word), 2].length = paylen 0x00000102 ∧
    ((0x00000102 : Word).extractLsb' 0 8 ∈ [(0x01 : Byte), 0x02, 0x03, 0x04, 0x07, 0x08, 0x09] ∧
      (0x00000102 : Word).extractLsb' 8 24 ≠ (0 : BitVec 24)) ∧
    t.input = .word 0x00010005 :: (([] : List Word).map .word ++ []) ∧ ([] : List Word).length = paylen 0x00010005 ∧
    ((0x00010005 : Word).extractLsb' 0 8 = (0x05 : Byte) ∧ (0x00010005 : Word).extractLsb' 16 16 ≠ (0 : BitVec 16)) ∧
    (0x00000006 : Word).extractLsb' 0 8 = (0x06 : Byte) ∧ ([] : List Word).length = paylen 0x00000006 :=
  ⟨{ State.reset with input := [.word 0x00000102, .word 1, .word 2] }, { State.reset with input := [.word 0x00010005] },
   rfl, rfl, by decide, rfl, rfl, by decide, by decide, rfl⟩

/-- One packet for each of the five statuses of the check order, `SETSTATE` at cursor words 64 and 65. -/
theorem witness_PacketIsAnsweredInCheckOrder : CursorInRange State.reset ∧
    (∀ p ∈ ([[0x0000010A], [0x00000103], [0x00000003], 0x00000008 :: (List.replicate 32 0 ++ [65]),
        0x00000008 :: (List.replicate 32 0 ++ [64])] : List (List Word)),
      ∃ (s : State) (hdr : Word) (pay : List Word), CursorInRange s ∧ hdr :: pay = p ∧
        s.input = .word hdr :: (pay.map .word ++ []) ∧ pay.length = paylen hdr) := by
  refine ⟨by decide, ?_⟩
  intro p hp
  simp only [List.mem_cons, List.not_mem_nil, or_false] at hp
  rcases hp with rfl | rfl | rfl | rfl | rfl <;>
    exact ⟨{ State.reset with input := .word _ :: (List.map .word _ ++ []) }, _, _, by decide, rfl, rfl, by decide⟩

theorem witness_IncompletePacketHoldsThePort : ∃ s : State, State.reset.input = [] ∧
    s.input = .word 0x00000002 :: ([1] : List Word).map .word ∧ [(1 : Word)].length < paylen 0x00000002 :=
  ⟨{ State.reset with input := [.word 0x00000002, .word 1] }, rfl, rfl, by decide⟩

/-- With words of an incomplete packet received, and with none. -/
theorem witness_ResetLeavesTheResetState : ∃ s t : State,
    s.input = ([0x00000002, 1] : List Word).map .word ++ .reset :: [] ∧
    (∀ hdr ∈ ([0x00000002, 1] : List Word).head?, ([0x00000002, 1] : List Word).length < 1 + paylen hdr) ∧
    t.input = ([] : List Word).map .word ++ .reset :: [] ∧
    (∀ hdr ∈ ([] : List Word).head?, ([] : List Word).length < 1 + paylen hdr) :=
  ⟨{ State.reset with input := [.word 0x00000002, .word 1, .reset] }, { State.reset with input := [.reset] },
   rfl, by simp; decide, rfl, by simp⟩

theorem witness_CollectingTakesTheOldestResponse : ∃ s : State,
    s.input = ([0x00000002, 1] : List Word).map .word ++ .collect :: [] ∧ s.outbox = [[0x00000300]] ∧
    (∀ hdr ∈ ([0x00000002, 1] : List Word).head?, ([0x00000002, 1] : List Word).length < 1 + paylen hdr) :=
  ⟨{ State.reset with input := [.word 0x00000002, .word 1, .collect], outbox := [[0x00000300]] }, rfl, rfl, by simp; decide⟩

theorem witness_QuarterRoundStepsAndBijection : ∃ z0 z1 z2 z3, quarterRound 1 2 3 4 = (z0, z1, z2, z3) := ⟨_, _, _, _, rfl⟩

/-- Ready states, for every statement about a ready state: `StepReplacesTheBlock`, `GetstateReturnsTheBlob`,
`DrawIsALittleEndianRead`, `XorbufOfNoBytesConsumesNothing` and those below. -/
theorem witness_ready_state : (withB0 0).keyValid = true ∧ (withB0 0).ivValid = true ∧ CursorInRange (withB0 0) := by decide

theorem witness_UninitialisedCommandsAreAnswered : State.reset.keyValid = false ∧
    ({ withB0 0 with ivValid := false } : State).ivValid = false := by decide

/-- Both sides of `NEXT`'s condition at its edges: cursor 56 is the last without a refill, 57 the first with one. -/
theorem witness_NextDrawsTwoWords : (withB0 56).keyValid = true ∧ (withB0 56).ivValid = true ∧
    ((withB0 56).cur.toNat + 3) / 4 + 1 < 16 ∧ 16 ≤ ((withB0 57).cur.toNat + 3) / 4 + 1 ∧
    16 ≤ ((withB0 64).cur.toNat + 3) / 4 + 1 := by decide

theorem witness_EightZeroBytesEqualOneDraw : (withB0 56).keyValid = true ∧ (withB0 56).ivValid = true ∧
    ((withB0 56).cur.toNat % 4 = 0 ∧ (withB0 56).cur.toNat ≤ 56) ∧ (withB0 64).cur = 64 := by decide

theorem witness_XorbXorsTheNextByte : (withB0 63).keyValid = true ∧ (withB0 63).ivValid = true ∧
    (withB0 63).cur.toNat < 64 ∧ (withB0 64).cur = 64 := by decide

theorem witness_XorbufXorsTheKeystream : (withB0 64).keyValid = true ∧ (withB0 64).ivValid = true ∧ CursorInRange (withB0 64) ∧
    [(1 : Word), 2].length = ceil4 (5 : BitVec 24).toNat := by decide

theorem witness_CuttingABufferChangesNothing : (withB0 63).keyValid = true ∧ (withB0 63).ivValid = true ∧
    CursorInRange (withB0 63) ∧ ([1, 2] ++ [3] : List Byte).length ≤ Config.maxLen := by decide

theorem witness_DecryptionUndoesEncryption : (withB0 63).keyValid = true ∧ (withB0 63).ivValid = true ∧
    CursorInRange (withB0 63) ∧ ([] : List Byte).length ≤ Config.maxLen ∧ ([1, 2] : List Byte).length ≤ Config.maxLen := by decide

theorem witness_EncryptGivesTheBytesOfSingleXors : (withB0 63).keyValid = true ∧ (withB0 63).ivValid = true ∧
    CursorInRange (withB0 63) ∧ ([1, 2] : List Byte).length ≤ Config.maxLen := by decide

theorem witness_StreamPositionCountsBytes : (withB0 63).keyValid = true ∧
    ∀ piece ∈ ([[1, 2], []] : List (List Byte)), piece.length ≤ Config.maxLen := by decide

/-- The two sides of the cursor check: 64 and 65. -/
theorem witness_SetstateLoadsOrRefusesTheBlob : (((Vector.replicate 33 (0 : Word)).set 32 64)[32]).toNat ≤ 64 ∧
    64 < (((Vector.replicate 33 (0 : Word)).set 32 65)[32]).toNat := by decide

theorem witness_SaveAndRestoreRoundTrip : (withB0 64).keyValid = true ∧ (withB0 64).ivValid = true ∧ CursorInRange (withB0 64) ∧
    (((Vector.replicate 33 (0 : Word)).set 32 64)[32]).toNat ≤ 64 := by decide

/-- A step that runs a command, from a state with the cursor at its bound. -/
theorem witness_EveryStepKeepsTheCursorInRange : ∃ s t : State, CursorInRange s ∧ s.cur = 64 ∧ step s = .next t :=
  ⟨{ withB0 64 with input := [.word 0x00004105] }, _, by decide, rfl, rfl⟩

theorem witness_NoStepStops : CursorInRange { withB0 64 with input := [.word 0x00004105] } := by decide

/-- A reachable state that is not the reset state: the host has sent `STATUS`, and it has been answered. -/
theorem witness_NoReachableStateStops : ∃ s : State, Reachable s ∧ s.outbox = [[0x00000900, 0x00004000]] :=
  ⟨_, .step (.host .reset [.word 0x00000009]) rfl, rfl⟩

/-- Two states that differ in a word never written, about to run `SETKEY`. -/
theorem witness_UnwrittenCoreWordsAreNeverRead : ∃ s t s' : State, s ≠ t ∧ AgreeWhereWritten s t ∧ step s = .next s' := by
  refine ⟨{ State.reset with core := Vector.replicate 16 1, input := [.word 0x00000009] },
    { State.reset with input := [.word 0x00000009] }, _, by decide, ?_, rfl⟩
  exact ⟨rfl, rfl, rfl, rfl, rfl, rfl, (fun h => nomatch h), (fun h => nomatch h)⟩

/-- The same length of message, different bytes, in states of different keys. -/
theorem witness_ControlDependsOnPublicValuesOnly : (Instr.xorbuf 2 [1]).wf = true ∧ (Instr.xorbuf 2 [7]).wf = true ∧
    publicCommand (.xorbuf 2 [1]) = publicCommand (.xorbuf 2 [7]) ∧
    publicState (withB0 63) = publicState (at_ (coreKV 9) (Vector.replicate 16 0) 63) ∧
    (withB0 63).outbox.length = (at_ (coreKV 9) (Vector.replicate 16 0) 63).outbox.length := by decide

/-- For `OnlyLoadsSetTheValidityFlags` and `OnlyTheirWritersChangeRegisters`: commands that do change a flag and registers. -/
theorem witness_whole_machine_rules : ∃ t u : State, exec (.setkey (Vector.replicate 8 1)) State.reset = .next t ∧
    t.keyValid ≠ State.reset.keyValid ∧ t.core[1] ≠ State.reset.core[1] ∧
    exec (.setiv #v[1, 2]) (withB0 8) = .next u ∧ u.counter ≠ (withB0 8).counter ∧ u.cur ≠ (withB0 8).cur :=
  ⟨_, _, rfl, by decide, by decide, rfl, by decide, by decide⟩

end Sys2Proof.Tests
end

section
/-! SUPPORT. What a command that answers a next state has done, said once for all nine commands; and what follows from it for
the cursor (R12): every step keeps it in range. -/

namespace Sys2Proof.Machine

/-! ## What a command can do -/

/-- The commands that ask for `ready` before anything else (R103); that they do is `exec_of_not_ready`. -/
def readyOps : List Op := [.step, .next, .xorb, .xorbuf, .getstate]

/-- In a state that is not ready they only raise `ERR_UNINIT` (R103). -/
theorem exec_of_not_ready {i : Instr} {s : State} (guarded : i.op ∈ readyOps) (unready : s.ready = false) :
    exec i s = .next (raiseError .uninit i.op.code s) := by
  cases i with
  | step | next | xorb | xorbuf | getstate => exact if_neg (by simp [unready])
  | setkey | setiv | setstate | status => simp [Instr.op, readyOps] at guarded

/-- The next states a command can answer with, each with the condition under which it does: the effect of the command, or one
of the two errors its meaning raises (R103, R104). -/
inductive Answers (s : State) : Instr → State → Prop where
  | setkey (k : Vector Word 8) : Answers s (.setkey k) (respond .setkey [] (loadKey k s))
  | setiv (iv : Vector Word 2) : Answers s (.setiv iv) (respond .setiv [] (loadIv iv s))
  | step (ready : s.ready = true) : Answers s .step (respond .step [] (refill s))
  | draw (ready : s.ready = true) (unread : firstUnreadWord s + 1 < 16) :
      Answers s .next (drawAt (firstUnreadWord s) unread s)
  | refillDraw (ready : s.ready = true) (used : ¬firstUnreadWord s + 1 < 16) :
      Answers s .next (drawAt 0 (by decide) (refill s))
  | xorb {byte out : Byte} {u : State} (ready : s.ready = true) (run : xorByte byte s = some (out, u)) :
      Answers s (.xorb byte) (respond .xorb [out.setWidth 32] u)
  | xorbuf {len : BitVec 24} {pay : List Word} {out : List Byte} {u : State} (ready : s.ready = true)
      (run : xorBytes (messageBytes len pay) s = some (out, u)) :
      Answers s (.xorbuf len pay) (respond .xorbuf (packBytes out) u)
  | getstate (ready : s.ready = true) : Answers s .getstate (respond .getstate (blobWords s) s)
  | setstate {blob : Vector Word 33} (cursor : ¬64 < blobCursor blob) :
      Answers s (.setstate blob) (respond .setstate [] (loadBlob blob s))
  | status : Answers s .status (respond .status [statusView s] s)
  | badState {blob : Vector Word 33} (cursor : 64 < blobCursor blob) :
      Answers s (.setstate blob) (raiseError .badState Op.setstate.code s)
  | uninit {i : Instr} (unready : s.ready = false) (guarded : i.op ∈ readyOps) :
      Answers s i (raiseError .uninit i.op.code s)

/-- A guarded command answers `ERR_UNINIT`, or what its body answers in a ready state. -/
theorem Answers.of_requireReady {i : Instr} {s t : State} {body : Result} (h : requireReady i.op s body = .next t)
    (guarded : i.op ∈ readyOps) (run : s.ready = true → body = .next t → Answers s i t) : Answers s i t := by
  obtain ⟨unready, rfl⟩ | ⟨ready, hbody⟩ := requireReady_next h
  · exact .uninit unready guarded
  · exact run ready hbody

/-- A command that answers a next state answers one of those. -/
theorem answers_of_exec {i : Instr} {s t : State} (h : exec i s = .next t) : Answers s i t := by
  cases i with
  | setkey k => cases h; exact .setkey k
  | setiv iv => cases h; exact .setiv iv
  | status => cases h; exact .status
  | step =>
    refine .of_requireReady (i := .step) h (by decide) fun ready hbody => ?_
    cases hbody
    exact .step ready
  | getstate =>
    refine .of_requireReady (i := .getstate) h (by decide) fun ready hbody => ?_
    cases hbody
    exact .getstate ready
  | next =>
    refine .of_requireReady (i := .next) h (by decide) fun ready hbody => ?_
    split at hbody <;> cases hbody
    · exact .draw ready ‹_›
    · exact .refillDraw ready ‹_›
  | xorb byte =>
    refine .of_requireReady (i := .xorb byte) h (by simp [Instr.op, readyOps]) fun ready hbody => ?_
    split at hbody <;> cases hbody
    exact .xorb ready ‹_›
  | xorbuf len pay =>
    refine .of_requireReady (i := .xorbuf len pay) h (by simp [Instr.op, readyOps]) fun ready hbody => ?_
    split at hbody <;> cases hbody
    exact .xorbuf ready ‹_›
  | setstate blob =>
    simp only [exec, execSetstate] at h
    split at h <;> cases h
    · exact .badState ‹_›
    · exact .setstate ‹_›

/-! ## The cursor (R12) -/

theorem cursorInRange_iff (s : State) : CursorInRange s ↔ s.cur.toNat ≤ 64 := BitVec.le_def

/-- A blob that is not refused has its cursor, cut to seven bits, in range (R92). -/
theorem blobCursor_cut_le {blob : Vector Word 33} (h : ¬64 < blobCursor blob) :
    (blobCursor blob).extractLsb' 0 7 ≤ (64 : BitVec 7) := by
  simp only [BitVec.lt_def, BitVec.le_def, BitVec.extractLsb'_toNat, BitVec.ofNat_eq_ofNat,
    BitVec.toNat_ofNat, Nat.shiftRight_zero] at h ⊢
  omega

/-- Every command keeps the cursor in range. -/
theorem Answers.cursorInRange {i : Instr} {s t : State} (h : Answers s i t) (hs : CursorInRange s) : CursorInRange t := by
  cases h with
  | setkey | status | getstate | badState | uninit => exact hs
  | setiv => exact BitVec.le_refl 64
  | step => exact show (0 : BitVec 7) ≤ 64 by decide
  | draw _ unread =>
    simp only [cursorInRange_iff, drawAt_cur, BitVec.toNat_ofNat]
    omega
  | refillDraw => exact show (8 : BitVec 7) ≤ 64 by decide
  | xorb _ run =>
    obtain ⟨⟨hcur, -⟩, -⟩ := xorByte_some run
    exact (cursorInRange_iff _).mpr hcur
  | xorbuf _ run =>
    obtain ⟨-, -, -, -, -, hcur, -⟩ := xorBytes_some run
    exact (cursorInRange_iff _).mpr (hcur ((cursorInRange_iff s).mp hs))
  | setstate cursor => exact blobCursor_cut_le cursor

/-- Every packet keeps the cursor in range: a command does, and a decoding error changes no register. -/
theorem runPacket_cursorInRange {hdr : Word} {pay : List Word} {s t : State} (hs : CursorInRange s)
    (h : runPacket hdr pay s = .next t) : CursorInRange t := by
  obtain ⟨i, -, hexec⟩ | ⟨-, rfl⟩ | ⟨-, rfl⟩ := runPacket_cases h
  · exact (answers_of_exec hexec).cursorInRange hs
  · exact hs
  · exact hs

/-- Settles O39: a step waits, collects a response, resets, or runs a packet, and each keeps the cursor in range. -/
theorem everyStepKeepsTheCursorInRange : Obligations.EveryStepKeepsTheCursorInRange := by
  intro s t hs h
  obtain ⟨-, rfl⟩ | ⟨rest, -, rfl⟩ | ⟨rest, -, rfl⟩ | ⟨hdr, pay, rest, -, -, hrun⟩ := step_cases h
  · exact hs
  · exact hs
  · exact BitVec.le_refl 64
  · exact runPacket_cursorInRange (s := { s with input := rest }) hs hrun

/-- Settles O40: the cursor is 64 after reset. -/
theorem resetHasTheCursorInRange : Obligations.ResetHasTheCursorInRange := BitVec.le_refl 64

/-- Settles O12, each value by the definition of the reset state (R19). -/
theorem resetStateValues : Obligations.ResetStateValues :=
  ⟨rfl, rfl, rfl, rfl, by decide, rfl, rfl⟩

end Sys2Proof.Machine
end

section
/-! SUPPORT. Who sets the validity flags (R13) and who writes each register (R10 to R12): one lemma per register over the
next states a command can answer with. -/

namespace Sys2Proof.Machine

/-! ## The words a load leaves (R66, R67) -/

theorem loadKey_core_other (k : Vector Word 8) (s : State) {n : Nat} (hn : 5 < n ∧ n < 10) :
    (loadKey k s).core[n] = s.core[n] := by
  obtain ⟨h5, h10⟩ := hn
  interval_cases n <;> rfl

theorem loadIv_core_other (iv : Vector Word 2) (s : State) {n : Nat} (hn : n < 16) (hother : n < 6 ∨ 9 < n) :
    (loadIv iv s).core[n] = s.core[n] := by
  rw [loadIv_core]
  iterate 4 rw [Vector.getElem_set_ne _ _ (by omega)]

/-! ## The words a load writes are the same from every state (R66, R67) -/

theorem loadKey_core_loaded (k : Vector Word 8) (s t : State) {n : Nat} (hn : n < 16) (hkey : n < 6 ∨ 9 < n) :
    (loadKey k s).core[n] = (loadKey k t).core[n] := by
  obtain h | h := hkey <;> interval_cases n <;> rfl

theorem loadIv_core_loaded (iv : Vector Word 2) (s t : State) {n : Nat} (hn : 5 < n ∧ n < 10) :
    (loadIv iv s).core[n] = (loadIv iv t).core[n] := by
  obtain ⟨h5, h10⟩ := hn
  interval_cases n <;> simp

namespace Answers

variable {i : Instr} {s t : State}

/-! ## The validity flags (R13) -/

theorem keyValid_eq_or_load (h : Answers s i t) :
    t.keyValid = s.keyValid ∨ t.keyValid = true ∧ (i.op = .setkey ∨ i.op = .setstate) := by
  cases h with
  | setkey => exact .inr ⟨rfl, .inl rfl⟩
  | setstate => exact .inr ⟨rfl, .inr rfl⟩
  | xorb _ run =>
    obtain ⟨⟨-, hk, -⟩, -⟩ := xorByte_some run
    exact .inl hk
  | xorbuf _ run =>
    obtain ⟨-, hk, -⟩ := xorBytes_some run
    exact .inl hk
  | _ => exact .inl rfl

theorem ivValid_eq_or_load (h : Answers s i t) :
    t.ivValid = s.ivValid ∨ t.ivValid = true ∧ (i.op = .setiv ∨ i.op = .setstate) := by
  cases h with
  | setiv => exact .inr ⟨rfl, .inl rfl⟩
  | setstate => exact .inr ⟨rfl, .inr rfl⟩
  | xorb _ run =>
    obtain ⟨⟨-, -, hi, -⟩, -⟩ := xorByte_some run
    exact .inl hi
  | xorbuf _ run =>
    obtain ⟨-, -, hi, -⟩ := xorBytes_some run
    exact .inl hi
  | _ => exact .inl rfl

theorem keyValid_of_setkey (h : Answers s i t) (hop : i.op = .setkey) : t.keyValid = true := by
  cases h with
  | setkey => rfl
  | uninit _ guarded => simp [hop, readyOps] at guarded
  | _ => cases hop

theorem ivValid_of_setiv (h : Answers s i t) (hop : i.op = .setiv) : t.ivValid = true := by
  cases h with
  | setiv => rfl
  | uninit _ guarded => simp [hop, readyOps] at guarded
  | _ => cases hop

theorem flags_of_setstate {blob : Vector Word 33} (h : Answers s (.setstate blob) t) (hle : blobCursor blob ≤ 64) :
    t.keyValid = true ∧ t.ivValid = true := by
  cases h with
  | setstate => exact ⟨rfl, rfl⟩
  | badState cursor => exact absurd cursor (BitVec.not_lt.mpr hle)
  | uninit _ guarded => simp [Instr.op, readyOps] at guarded

/-! ## The core words (R10) -/

/-- The words besides the counter: constants and key are loaded by `SETKEY`, the IV by `SETIV`, all of them by `SETSTATE`. -/
theorem core_eq_or_load (h : Answers s i t) {n : Nat} (hn : n < 16) (h8 : n ≠ 8) (h9 : n ≠ 9) :
    t.core[n] = s.core[n] ∨ i.op = .setstate ∨ (i.op = .setkey ∧ (n < 6 ∨ 9 < n)) ∨
      (i.op = .setiv ∧ 5 < n ∧ n < 8) := by
  cases h with
  | setkey k =>
    by_cases hiv : 5 < n ∧ n < 10
    · exact .inl (loadKey_core_other k s hiv)
    · exact .inr (.inr (.inl ⟨rfl, by omega⟩))
  | setiv iv =>
    by_cases hiv : 5 < n ∧ n < 8
    · exact .inr (.inr (.inr ⟨rfl, hiv⟩))
    · exact .inl (loadIv_core_other iv s hn (by omega))
  | step | refillDraw => exact .inl (incrementCounter_other hn h8 h9)
  | xorb _ run =>
    obtain ⟨-, hcore⟩ := xorByte_some run
    exact .inl (hcore n hn h8 h9)
  | xorbuf _ run =>
    obtain ⟨-, -, -, -, -, -, hcore⟩ := xorBytes_some run
    exact .inl (hcore n hn h8 h9)
  | setstate => exact .inr (.inl rfl)
  | draw | getstate | status | badState | uninit => exact .inl rfl

/-! ## The counter, the cache and the cursor (R10 to R12) -/

theorem stream_eq_or_writer (h : Answers s i t) :
    (t.counter = s.counter ∧ t.cache = s.cache ∧ t.cur = s.cur) ∨
      i.op ∈ [Op.setiv, .setstate, .step, .next, .xorb, .xorbuf] := by
  cases h with
  | setkey | getstate | status | badState | uninit => exact .inl ⟨rfl, rfl, rfl⟩
  | setiv | step | draw | refillDraw | xorb | xorbuf | setstate => exact .inr (by simp [Instr.op])

/-! ## The port (R36, R47) -/

theorem input_eq (h : Answers s i t) : t.input = s.input := by
  cases h with
  | xorb _ run =>
    obtain ⟨⟨-, -, -, hin, -⟩, -⟩ := xorByte_some run
    exact hin
  | xorbuf _ run =>
    obtain ⟨-, -, -, hin, -⟩ := xorBytes_some run
    exact hin
  | setstate => rw [respond_input, loadBlob_input]
  | _ => rfl

theorem outbox_eq (h : Answers s i t) : ∃ response, t.outbox = s.outbox ++ [response] := by
  cases h with
  | xorb _ run =>
    obtain ⟨⟨-, -, -, -, hout⟩, -⟩ := xorByte_some run
    exact ⟨_, by rw [respond_outbox, hout]⟩
  | xorbuf _ run =>
    obtain ⟨-, -, -, -, hout, -⟩ := xorBytes_some run
    exact ⟨_, by rw [respond_outbox, hout]⟩
  | setstate => exact ⟨_, by rw [respond_outbox, loadBlob_outbox]⟩
  | _ => exact ⟨_, rfl⟩

end Answers

/-- Settles O45, from what a command can answer: a flag is kept or set by its load, and the loads do set it. -/
theorem onlyLoadsSetTheValidityFlags : Obligations.OnlyLoadsSetTheValidityFlags := by
  intro i s t hexec
  have h := answers_of_exec hexec
  have hkey := h.keyValid_eq_or_load
  have hiv := h.ivValid_eq_or_load
  refine ⟨fun hs => ?_, fun hs => ?_, fun hne => ?_, fun hne => ?_, h.keyValid_of_setkey, h.ivValid_of_setiv, ?_⟩
  · exact hkey.elim (·.trans hs) And.left
  · exact hiv.elim (·.trans hs) And.left
  · exact (hkey.resolve_left hne).2
  · exact (hiv.resolve_left hne).2
  · rintro blob rfl hle
    exact h.flags_of_setstate (BitVec.le_def.mpr hle)

/-- Settles O46, register by register. -/
theorem onlyTheirWritersChangeRegisters : Obligations.OnlyTheirWritersChangeRegisters := by
  intro i s t hexec
  have h := answers_of_exec hexec
  refine ⟨fun n hn hne => ?_, fun hne => ?_, fun hne => ?_, h.input_eq, h.outbox_eq⟩
  · obtain hop | ⟨hop, -⟩ | ⟨-, hiv⟩ := (h.core_eq_or_load n.isLt (by omega) (by omega)).resolve_left hne
    · exact .inr hop
    · exact .inl hop
    · omega
  · obtain ⟨n, hn, hiv, hne⟩ : ∃ (n : Nat) (_ : n < 16), (5 < n ∧ n < 8) ∧ t.core[n] ≠ s.core[n] :=
      hne.elim (⟨6, by decide, by decide, ·⟩) (⟨7, by decide, by decide, ·⟩)
    obtain hop | ⟨-, hkey⟩ | ⟨hop, -⟩ := (h.core_eq_or_load hn (by omega) (by omega)).resolve_left hne
    · exact .inr hop
    · omega
    · exact .inl hop
  · exact h.stream_eq_or_writer.resolve_left (by tauto)

end Sys2Proof.Machine
end

section
/-! SUPPORT. From a cursor in range no step stops, and every reachable state has such a cursor (R12, R36). -/

namespace Sys2Proof.Machine

/-! ## A command answers -/

theorem exists_next_requireReady {o : Op} {s : State} {body : Result} (h : ∃ t, body = .next t) :
    ∃ t, requireReady o s body = .next t := by
  unfold requireReady
  split
  · exact h
  · exact ⟨_, rfl⟩

/-- With the cursor in range every command answers: the byte steps then have a byte to read. -/
theorem exists_next_exec (i : Instr) {s : State} (hs : CursorInRange s) : ∃ t, exec i s = .next t := by
  have hcur := (cursorInRange_iff s).mp hs
  cases i with
  | setkey | setiv | status => exact ⟨_, rfl⟩
  | step | getstate => exact exists_next_requireReady ⟨_, rfl⟩
  | next =>
    refine exists_next_requireReady ?_
    split <;> exact ⟨_, rfl⟩
  | xorb byte =>
    obtain ⟨out, u, run⟩ := xorByte_isSome (b := byte) hcur
    exact exists_next_requireReady ⟨_, by rw [run]⟩
  | xorbuf len pay =>
    obtain ⟨out, u, run⟩ := xorBytes_isSome (messageBytes len pay) hcur
    exact exists_next_requireReady ⟨_, by rw [run]⟩
  | setstate blob =>
    simp only [exec, execSetstate]
    split <;> exact ⟨_, rfl⟩

/-! ## A whole packet decodes, or has one of the two decoding errors (R46, R50) -/

theorem orWrongLength_takeVector {n : Nat} {pay : List Word} (command : Vector Word n → Instr) (h : pay.length = n) :
    ∃ i, orWrongLength ((takeVector n pay).map command) = .ok i := by
  rw [takeVector, dif_pos h]
  exact ⟨_, rfl⟩

/-- A payload of the length its header asks for makes a command. -/
theorem assemble_of_length {o : Op} {hdr : Word} {pay : List Word} (h : pay.length = o.payloadWords hdr) :
    ∃ i, assemble o hdr pay = .ok i := by
  cases o with
  | setkey | setiv | setstate => exact orWrongLength_takeVector _ h
  | xorbuf => exact ⟨_, congrArg orWrongLength (if_pos ((hasLength_iff _ _).mpr h))⟩
  | step | next | xorb | getstate | status =>
    rw [List.eq_nil_of_length_eq_zero h]
    exact ⟨_, rfl⟩

theorem decodePacket_of_length {hdr : Word} {pay : List Word} (h : pay.length = paylen hdr) :
    (∃ i, decodePacket hdr pay = .ok i) ∨ decodePacket hdr pay = .error .illegalOpcode ∨
      decodePacket hdr pay = .error .reservedField := by
  unfold decodePacket
  unfold paylen at h
  split
  · exact .inr (.inl rfl)
  · next o ho =>
    rw [ho] at h
    split
    · exact .inl (assemble_of_length h)
    · exact .inr (.inr rfl)

/-! ## A step answers -/

theorem exists_next_runPacket {hdr : Word} {pay : List Word} {s : State} (hs : CursorInRange s)
    (hlen : pay.length = paylen hdr) : ∃ t, runPacket hdr pay s = .next t := by
  unfold runPacket
  obtain ⟨i, hi⟩ | he | he := decodePacket_of_length hlen
  · rw [hi]
    exact exists_next_exec i hs
  · rw [he]
    exact ⟨_, rfl⟩
  · rw [he]
    exact ⟨_, rfl⟩

/-- With the cursor in range every step answers. -/
theorem exists_next_step {s : State} (hs : CursorInRange s) : ∃ t, step s = .next t := by
  unfold step
  split
  · exact ⟨_, rfl⟩
  · exact ⟨_, rfl⟩
  · exact ⟨_, rfl⟩
  · exact exists_next_runPacket (s := { s with input := _ }) hs (fetch_packet_length ‹_›)

/-- The invariant of R12, by induction over how a state is reached. -/
theorem reachable_cursorInRange {s : State} (h : Reachable s) : CursorInRange s := by
  induction h with
  | reset => exact resetHasTheCursorInRange
  | step _ hstep ih => exact everyStepKeepsTheCursorInRange _ _ ih hstep
  | host _ _ ih => exact ih

/-- Settles O42: the cursor of a reachable state is in range, and from there every step answers. -/
theorem noReachableStateStops : Obligations.NoReachableStateStops := fun _ h =>
  ⟨reachable_cursorInRange h, exists_next_step (reachable_cursorInRange h)⟩

end Sys2Proof.Machine
end

section
/-! SUPPORT. Noninterference of the words never written (R22): states that agree where words have been written go on
agreeing. In a ready state every word has been written, so two such states are equal; in any other, only the loads,
`STATUS` and the errors are left, and none of them shows a word or copies one into a register. -/

namespace Sys2Proof.AgreeWhereWritten

open Machine

variable {s t : State}

theorem eq_of_ready (h : AgreeWhereWritten s t) (ready : s.ready = true) : s = t := by
  obtain ⟨hk, hi⟩ := (ready_iff s).mp ready
  have hcore : s.core = t.core := by
    apply Vector.ext
    intro n hn
    by_cases hiv : 5 < n ∧ n < 10
    · exact h.ivWords hi ⟨n, hn⟩ hiv
    · exact h.keyWords hk ⟨n, hn⟩ (show n < 6 ∨ 9 < n by omega)
  cases s
  cases t
  rw [State.mk.injEq]
  exact ⟨hcore, h.cache, h.cur, h.keyValid, h.ivValid, h.input, h.outbox⟩

theorem ready_eq (h : AgreeWhereWritten s t) : s.ready = t.ready := by
  simp only [State.ready, h.keyValid, h.ivValid]

theorem statusView_eq (h : AgreeWhereWritten s t) : statusView s = statusView t := by
  simp only [statusView, h.keyValid, h.ivValid, h.cur]

theorem refl (s : State) : AgreeWhereWritten s s :=
  ⟨rfl, rfl, rfl, rfl, rfl, rfl, fun _ _ _ => rfl, fun _ _ _ => rfl⟩

/-! ## Sending, collecting and taking from the port read no core word -/

theorem send (packet : List Word) (h : AgreeWhereWritten s t) :
    AgreeWhereWritten (Machine.send packet s) (Machine.send packet t) :=
  { h with outbox := congrArg (· ++ [packet]) h.outbox }

theorem withInput (rest : List PortEvent) (h : AgreeWhereWritten s t) :
    AgreeWhereWritten { s with input := rest } { t with input := rest } :=
  { h with input := rfl }

theorem collectResponse (h : AgreeWhereWritten s t) :
    AgreeWhereWritten (Machine.collectResponse s) (Machine.collectResponse t) :=
  { h with outbox := congrArg List.tail h.outbox }

/-! ## The loads overwrite the words they vouch for -/

theorem loadKey (k : Vector Word 8) (h : AgreeWhereWritten s t) :
    AgreeWhereWritten (Machine.loadKey k s) (Machine.loadKey k t) where
  cache := h.cache
  cur := h.cur
  keyValid := rfl
  ivValid := h.ivValid
  input := h.input
  outbox := h.outbox
  keyWords := fun _ n hkey => loadKey_core_loaded k s t n.isLt hkey
  ivWords := fun hi n hiv =>
    (loadKey_core_other k s hiv).trans ((h.ivWords hi n hiv).trans (loadKey_core_other k t hiv).symm)

theorem loadIv (iv : Vector Word 2) (h : AgreeWhereWritten s t) :
    AgreeWhereWritten (Machine.loadIv iv s) (Machine.loadIv iv t) where
  cache := rfl
  cur := rfl
  keyValid := h.keyValid
  ivValid := rfl
  input := h.input
  outbox := h.outbox
  keyWords := fun hk n hkey =>
    (loadIv_core_other iv s n.isLt hkey).trans ((h.keyWords hk n hkey).trans (loadIv_core_other iv t n.isLt hkey).symm)
  ivWords := fun _ _ hiv => loadIv_core_loaded iv s t hiv

theorem loadBlob (b : Vector Word 33) (h : AgreeWhereWritten s t) :
    AgreeWhereWritten (Machine.loadBlob b s) (Machine.loadBlob b t) where
  cache := by simp only [loadBlob_cache]
  cur := by simp only [loadBlob_cur]
  keyValid := rfl
  ivValid := rfl
  input := by simpa only [loadBlob_input] using h.input
  outbox := by simpa only [loadBlob_outbox] using h.outbox
  keyWords := fun _ _ _ => by simp only [loadBlob_core]
  ivWords := fun _ _ _ => by simp only [loadBlob_core]

end Sys2Proof.AgreeWhereWritten

namespace Sys2Proof.Machine

/-! ## Agreeing answers -/

/-- Two answers of the same kind: next states that agree where words have been written, or the same stop. -/
inductive AnswersAgree : Result → Result → Prop where
  | next {s t : State} (agree : AgreeWhereWritten s t) : AnswersAgree (.next s) (.next t)
  | fault (f : Fault) : AnswersAgree (.fault f) (.fault f)
  | refused (r : Refusal) : AnswersAgree (.refused r) (.refused r)

namespace AnswersAgree

theorem refl (r : Result) : AnswersAgree r r := by
  cases r with
  | next s => exact .next (.refl s)
  | fault f => exact .fault f
  | refused r => exact .refused r

theorem exists_next {s : State} {r : Result} (h : AnswersAgree (.next s) r) :
    ∃ t, r = .next t ∧ AgreeWhereWritten s t := by
  cases h with
  | next agree => exact ⟨_, rfl, agree⟩

theorem eq_fault {f : Fault} {r : Result} (h : AnswersAgree (.fault f) r) : r = .fault f := by
  cases h with
  | fault => rfl

end AnswersAgree

/-- A command on agreeing states gives agreeing answers. -/
theorem exec_agree (i : Instr) {s t : State} (h : AgreeWhereWritten s t) : AnswersAgree (exec i s) (exec i t) := by
  by_cases ready : s.ready = true
  · rw [h.eq_of_ready ready]
    exact .refl _
  have unready : s.ready = false := by simpa using ready
  cases i with
  | setkey k => exact .next ((h.loadKey k).send _)
  | setiv iv => exact .next ((h.loadIv iv).send _)
  | setstate blob =>
    simp only [exec, execSetstate]
    split
    · exact .next (h.send _)
    · exact .next ((h.loadBlob blob).send _)
  | status =>
    simp only [exec, execStatus, h.statusView_eq]
    exact .next (h.send _)
  | step | next | xorb | xorbuf | getstate =>
    rw [exec_of_not_ready (by simp [Instr.op, readyOps]) unready,
      exec_of_not_ready (by simp [Instr.op, readyOps]) (h.ready_eq ▸ unready)]
    exact .next (h.send _)

theorem runPacket_agree (hdr : Word) (pay : List Word) {s t : State} (h : AgreeWhereWritten s t) :
    AnswersAgree (runPacket hdr pay s) (runPacket hdr pay t) := by
  unfold runPacket
  split
  · exact exec_agree _ h
  · exact .next (h.send _)
  · exact .next (h.send _)
  · exact .refl _
  · exact .refl _

/-- A step from agreeing states gives agreeing answers. -/
theorem step_agree {s t : State} (h : AgreeWhereWritten s t) : AnswersAgree (step s) (step t) := by
  unfold step
  rw [← h.input]
  split
  · exact .next h
  · exact .next (h.withInput _).collectResponse
  · exact .refl _
  · exact runPacket_agree _ _ (h.withInput _)

/-- Settles O43, from the agreement of the two steps' answers. -/
theorem unwrittenCoreWordsAreNeverRead : Obligations.UnwrittenCoreWordsAreNeverRead := by
  intro s t h
  have hstep := step_agree h
  refine ⟨fun s' hs => ?_, fun f hs => ?_⟩
  · rw [hs] at hstep
    exact hstep.exists_next
  · rw [hs] at hstep
    exact hstep.eq_fault

end Sys2Proof.Machine
end

section
/-! SUPPORT. The position in the stream (R16): what the counter and the cursor are when `n` bytes have been consumed since
`SETIV`, kept by every byte step. -/

namespace Sys2Proof.Machine

/-- The increment of the two counter words is the increment of the counter (R75). -/
theorem counterOf_incrementCounter (x : Block) : counterOf (incrementCounter x) = counterOf x + 1 := by
  apply BitVec.eq_of_toNat_eq
  rw [BitVec.toNat_add, counterOf_toNat, counterOf_toNat, incrementCounter_low, incrementCounter_high]
  have h8 := x[8].isLt
  have h9 := x[9].isLt
  have hz : x[8] + 1 = 0 ↔ x[8].toNat = 2 ^ 32 - 1 := by
    generalize x[8] = w
    bv_omega
  split
  · next h =>
    have hlow := hz.mp h
    rw [h, hlow]
    simp only [BitVec.toNat_add, BitVec.ofNat_eq_ofNat, BitVec.toNat_ofNat]
    omega
  · next h =>
    have hlow := mt hz.mpr h
    simp only [BitVec.toNat_add, BitVec.ofNat_eq_ofNat, BitVec.toNat_ofNat]
    omega

/-- A ready state whose stream stands behind `n` bytes (R16): the counter is `ceil(n / 64)`, the cursor past the bytes of the
last block consumed. -/
structure StreamAt (s : State) (n : Nat) : Prop where
  keyValid : s.keyValid = true
  ivValid : s.ivValid = true
  counter : s.counter = BitVec.ofNat 64 ((n + 63) / 64)
  cur : s.cur.toNat + 64 * ((n + 63) / 64) = n + 64

namespace StreamAt

theorem loadIv (iv : Vector Word 2) {s : State} (hk : s.keyValid = true) : StreamAt (loadIv iv s) 0 where
  keyValid := hk
  ivValid := rfl
  counter := by simp [State.counter, counterOf]
  cur := rfl

theorem respond {s : State} {n : Nat} (o : Op) (data : List Word) (h : StreamAt s n) : StreamAt (respond o data s) n :=
  ⟨h.keyValid, h.ivValid, h.counter, h.cur⟩

/-- A byte step moves the stream by one byte: within a block the cursor goes on, at its end the counter does too. -/
theorem xorByte {s t : State} {n : Nat} {b o : Byte} (h : StreamAt s n) (run : xorByte b s = some (o, t)) :
    StreamAt t (n + 1) := by
  obtain ⟨hk, hi, hcounter, hcur⟩ := h
  by_cases hlt : s.cur.toNat < 64
  · rw [xorByte_unread hlt] at run
    obtain ⟨-, rfl⟩ := by simpa using run
    have hceil : (n + 1 + 63) / 64 = (n + 63) / 64 := by omega
    refine ⟨hk, hi, hceil ▸ hcounter, ?_⟩
    simp only [BitVec.toNat_add, BitVec.toNat_ofNat]
    omega
  · have h64 : s.cur = 64 := BitVec.eq_of_toNat_eq (by simp; omega)
    rw [xorByte_empty h64] at run
    obtain ⟨-, rfl⟩ := by simpa using run
    have hceil : (n + 1 + 63) / 64 = (n + 63) / 64 + 1 := by omega
    refine ⟨hk, hi, ?_, ?_⟩
    · calc counterOf (incrementCounter s.core)
          = counterOf s.core + 1 := counterOf_incrementCounter s.core
        _ = BitVec.ofNat 64 ((n + 63) / 64) + 1 := congrArg (· + 1) hcounter
        _ = BitVec.ofNat 64 ((n + 1 + 63) / 64) := by rw [hceil, BitVec.ofNat_add]; rfl
    · show (1 : BitVec 7).toNat + 64 * ((n + 1 + 63) / 64) = n + 1 + 64
      rw [show (1 : BitVec 7).toNat = 1 from rfl]
      omega

theorem xorBytes {bs out : List Byte} {s t : State} {n : Nat} (h : StreamAt s n) (run : xorBytes bs s = some (out, t)) :
    StreamAt t (n + bs.length) := by
  induction bs generalizing s n out with
  | nil =>
    obtain ⟨-, rfl⟩ := by simpa using run
    exact h
  | cons b bs ih =>
    obtain ⟨o, os, u, hb, hbs, -⟩ := xorBytes_cons_some run
    have := ih (h.xorByte hb) hbs
    rwa [Nat.add_right_comm, Nat.add_assoc] at this

end StreamAt

/-- The message of the command made for a buffer is the buffer, if it fits one packet. -/
theorem messageBytes_bufferCommand {msg : List Byte} (h : msg.length ≤ Config.maxLen) :
    messageBytes (BitVec.ofNat 24 msg.length) (packBytes msg) = msg := by
  have hlen : (BitVec.ofNat 24 msg.length).toNat = msg.length := by
    rw [BitVec.toNat_ofNat, Nat.mod_eq_of_lt (by unfold Config.maxLen at h; omega)]
  rw [messageBytes, hlen, take_packBytes]

theorem StreamAt.bufferCommand {msg : List Byte} {s : State} {n : Nat} (h : StreamAt s n)
    (hlen : msg.length ≤ Config.maxLen) :
    ∃ t, exec (bufferCommand msg) s = .next t ∧ StreamAt t (n + msg.length) := by
  obtain ⟨out, t, run⟩ := xorBytes_isSome msg (s := s) (by have := h.cur; omega)
  refine ⟨Machine.respond .xorbuf (packBytes out) t, ?_, (h.xorBytes run).respond _ _⟩
  simp only [Machine.bufferCommand, exec, execXorbuf, requireReady_of_ready h.keyValid h.ivValid,
    messageBytes_bufferCommand hlen, run]

theorem StreamAt.bufferCommands {pieces : List (List Byte)} {s : State} {n : Nat} (h : StreamAt s n)
    (hlen : ∀ piece ∈ pieces, piece.length ≤ Config.maxLen) :
    ∃ t, execAll (pieces.map Machine.bufferCommand) s = .next t ∧ StreamAt t (n + pieces.flatten.length) := by
  induction pieces generalizing s n with
  | nil => exact ⟨s, rfl, h⟩
  | cons piece pieces ih =>
    obtain ⟨hpiece, hpieces⟩ := List.forall_mem_cons.mp hlen
    obtain ⟨u, hu, hat⟩ := h.bufferCommand hpiece
    obtain ⟨t, ht, hend⟩ := ih hat hpieces
    refine ⟨t, ?_, ?_⟩
    · simpa only [List.map_cons, execAll, hu] using ht
    · rwa [List.flatten_cons, List.length_append, ← Nat.add_assoc]

/-- Settles O34: `SETIV` puts the stream at byte 0, and each piece moves it by its length. -/
theorem streamPositionCountsBytes : Obligations.StreamPositionCountsBytes := by
  intro s iv pieces hk hlen
  obtain ⟨t, ht, hat⟩ := ((StreamAt.loadIv iv hk).respond .setiv []).bufferCommands hlen
  rw [Nat.zero_add] at hat
  exact ⟨t, ht, hat.counter, hat.cur⟩

end Sys2Proof.Machine
end

section
/-! SUPPORT. A step on a whole packet, and a step in general: it runs what the packet decodes to (R36, R45, R50), and it
answers. -/

namespace Sys2Proof.Machine

/-- With the words of a whole packet at the port, a step takes them and runs the packet. -/
theorem step_of_packet {s : State} {hdr : Word} {pay : List Word} {rest : List PortEvent}
    (hin : s.input = .word hdr :: (pay.map .word ++ rest)) (hlen : pay.length = paylen hdr) :
    step s = runPacket hdr pay { s with input := rest } := by
  rw [step, hin, fetch_complete hdr pay rest hlen]

theorem runPacket_of_decode {hdr : Word} {pay : List Word} {i : Instr} (h : decode (hdr :: pay) = .ok i) (s : State) :
    runPacket hdr pay s = exec i s := by
  have hdecode : decodePacket hdr pay = .ok i := h
  rw [runPacket, hdecode]

/-- Settles O6: the port hands the packet over whole, and running it is running the command it decodes to. -/
theorem stepRunsDecodedCommand : Obligations.StepRunsDecodedCommand := fun _ _ _ _ _ hin hlen hdecode =>
  (step_of_packet hin hlen).trans (runPacket_of_decode hdecode _)

/-- Settles O41: whatever the port holds, a step with the cursor in range answers. -/
theorem noStepStops : Obligations.NoStepStops := fun _ => exists_next_step

end Sys2Proof.Machine
end

section
/-! SUPPORT. Byte reads and word reads of the cache view agree (R31): `XORB` commands are the byte steps of their bytes, four
byte steps on zero bytes at the start of a word give that word's bytes, and `NEXT` reads two words. -/

namespace Sys2Proof.Machine

/-! ## The byte steps do not look at the responses -/

theorem xorByte_send {b o : Byte} {s t : State} (packet : List Word) (h : xorByte b s = some (o, t)) :
    xorByte b (send packet s) = some (o, send packet t) := by
  have hcur : s.cur.toNat ≤ 64 := by
    by_contra hout
    rw [xorByte_outside (by omega)] at h
    cases h
  by_cases hlt : s.cur.toNat < 64
  · rw [xorByte_unread hlt] at h
    cases h
    exact xorByte_unread (s := send packet s) hlt
  · have h64 : s.cur = 64 := BitVec.eq_of_toNat_eq (by simp; omega)
    rw [xorByte_empty h64] at h
    cases h
    exact xorByte_empty (s := send packet s) h64

theorem xorBytes_send {bs out : List Byte} {s t : State} (packet : List Word) (h : xorBytes bs s = some (out, t)) :
    xorBytes bs (send packet s) = some (out, send packet t) := by
  induction bs generalizing s out with
  | nil =>
    cases h
    rfl
  | cons b bs ih =>
    obtain ⟨o, os, u, hb, hbs, rfl⟩ := xorBytes_cons_some h
    exact xorBytes_cons (xorByte_send packet hb) (ih hbs)

/-! ## `XORB` commands are byte steps (R86) -/

theorem exec_xorb_of_ready {b o : Byte} {s t : State} (hk : s.keyValid = true) (hi : s.ivValid = true)
    (run : xorByte b s = some (o, t)) : exec (.xorb b) s = .next (respond .xorb [o.setWidth 32] t) := by
  simp only [exec, execXorb, requireReady_of_ready hk hi, run]

/-- One `XORB` per byte of a message: the byte steps of the message, with one response for each byte. -/
theorem execAll_xorb {bs out : List Byte} {s t : State} (hk : s.keyValid = true) (hi : s.ivValid = true)
    (run : xorBytes bs s = some (out, t)) :
    execAll (bs.map .xorb) s =
      .next { t with outbox := s.outbox ++ out.map fun o => [0x00000500, o.setWidth 32] } := by
  induction bs generalizing s t out with
  | nil =>
    cases run
    simp [execAll]
  | cons b bs ih =>
    obtain ⟨o, os, u, hb, hbs, rfl⟩ := xorBytes_cons_some run
    obtain ⟨⟨-, huk, hui, -, hout⟩, -⟩ := xorByte_some hb
    have hrest := ih (s := respond .xorb [o.setWidth 32] u) (huk.trans hk) (hui.trans hi) (xorBytes_send _ hbs)
    rw [respond_outbox, hout, List.append_assoc] at hrest
    simp only [List.map_cons, execAll, exec_xorb_of_ready hk hi hb]
    exact hrest

/-! ## Byte steps on zero bytes read the cache (R31, R85) -/

/-- Byte `k` of word `w`, and the cursor behind it. -/
theorem xorByte_zero_at {s : State} {w k : Nat} (hw : w < 16) (hk : k < 4) (hcur : s.cur.toNat = 4 * w + k) :
    xorByte 0 s = some (byteOfWord s.cache[w] k, { s with cur := BitVec.ofNat 7 (4 * w + (k + 1)) }) := by
  have hdiv : s.cur.toNat / 4 = w := by omega
  have hmod : s.cur.toNat % 4 = k := by omega
  have hnext : s.cur + 1 = BitVec.ofNat 7 (4 * w + (k + 1)) := by
    apply BitVec.eq_of_toNat_eq
    simp only [BitVec.toNat_add, BitVec.ofNat_eq_ofNat, BitVec.toNat_ofNat]
    omega
  rw [xorByte_unread (by omega), hnext]
  simp only [hdiv, hmod, BitVec.ofNat_eq_ofNat, BitVec.zero_xor]

/-- The four bytes of word `w`, lowest first, and the cursor behind them. -/
theorem xorBytes_zero_word {s : State} {w : Nat} (hw : w < 16) (hcur : s.cur.toNat = 4 * w) :
    xorBytes [0, 0, 0, 0] s = some (wordBytes s.cache[w], { s with cur := BitVec.ofNat 7 (4 * (w + 1)) }) := by
  have behind {k : Nat} (hk : k < 4) : (BitVec.ofNat 7 (4 * w + k)).toNat = 4 * w + k := by
    rw [BitVec.toNat_ofNat]
    omega
  exact xorBytes_cons (xorByte_zero_at hw (k := 0) (by decide) hcur) <|
    xorBytes_cons (xorByte_zero_at hw (k := 1) (by decide) (behind (by decide))) <|
    xorBytes_cons (xorByte_zero_at hw (k := 2) (by decide) (behind (by decide))) <|
    xorBytes_cons (xorByte_zero_at hw (k := 3) (by decide) (behind (by decide))) (xorBytes_nil _)

/-- The eight bytes of words `w` and `w + 1`, and the cursor behind them. -/
theorem xorBytes_zero_draw {s : State} {w : Nat} (hw : w + 1 < 16) (hcur : s.cur.toNat = 4 * w) :
    xorBytes (List.replicate 8 0) s = some (wordBytes s.cache[w] ++ wordBytes s.cache[w + 1],
      { s with cur := BitVec.ofNat 7 (4 * (w + 2)) }) := by
  have behind : (BitVec.ofNat 7 (4 * (w + 1))).toNat = 4 * (w + 1) := by
    rw [BitVec.toNat_ofNat]
    omega
  exact xorBytes_append (xorBytes_zero_word (by omega) hcur) (xorBytes_zero_word hw behind)

/-- At the end of the cache the byte steps of a message that is not empty begin with the refill (R85). -/
theorem xorBytes_cons_refill {s : State} (b : Byte) (bs : List Byte) (h : s.cur = 64) :
    xorBytes (b :: bs) s = xorBytes (b :: bs) (refill s) := by
  have hb : xorByte b s = xorByte b (refill s) := by simp [xorByte, h]
  rw [xorBytes, xorBytes, hb]

/-! ## `NEXT` reads two words (R80) -/

theorem exec_next_of_word {s : State} {w : Nat} (hk : s.keyValid = true) (hi : s.ivValid = true) (hw : w + 1 < 16)
    (hcur : s.cur.toNat = 4 * w) : exec .next s = .next (drawAt w hw s) := by
  have hfirst : firstUnreadWord s = w := by
    rw [firstUnreadWord]
    omega
  subst hfirst
  rw [exec, execNext, requireReady_of_ready hk hi, dif_pos hw]

theorem exec_next_of_empty {s : State} (hk : s.keyValid = true) (hi : s.ivValid = true) (h : s.cur = 64) :
    exec .next s = .next (drawAt 0 (by decide) (refill s)) := by
  have hused : ¬firstUnreadWord s + 1 < 16 := by simp [firstUnreadWord, h]
  rw [exec, execNext, requireReady_of_ready hk hi, dif_neg hused]

/-- Where a word starts, and at the end of the cache, eight zero bytes read the two words `NEXT` draws, from the same block:
that of the state, or of the state refilled. -/
theorem draw_and_zero_bytes_read_alike {s : State} (hk : s.keyValid = true) (hi : s.ivValid = true)
    (hcur : s.cur.toNat % 4 = 0 ∧ s.cur.toNat ≤ 56 ∨ s.cur = 64) :
    ∃ (v : State) (w : Nat) (hw : w + 1 < 16), v.outbox = s.outbox ∧ exec .next s = .next (drawAt w hw v) ∧
      xorBytes (List.replicate 8 0) s = some (wordBytes v.cache[w] ++ wordBytes v.cache[w + 1],
        { v with cur := BitVec.ofNat 7 (4 * (w + 2)) }) := by
  obtain ⟨haligned, hunread⟩ | hempty := hcur
  · have hw : s.cur.toNat / 4 + 1 < 16 := by omega
    have hstart : s.cur.toNat = 4 * (s.cur.toNat / 4) := by omega
    exact ⟨s, s.cur.toNat / 4, hw, rfl, exec_next_of_word hk hi hw hstart, xorBytes_zero_draw hw hstart⟩
  · exact ⟨refill s, 0, by decide, rfl, exec_next_of_empty hk hi hempty,
      (xorBytes_cons_refill 0 _ hempty).trans (xorBytes_zero_draw (by decide) rfl)⟩

/-- Settles O26: the eight `XORB` commands are eight byte steps, and these read the two words of the draw. -/
theorem eightZeroBytesEqualOneDraw : Obligations.EightZeroBytesEqualOneDraw := by
  intro s hk hi hcur
  obtain ⟨v, w, hw, hout, hnext, hbytes⟩ := draw_and_zero_bytes_read_alike hk hi hcur
  have hxorbs := execAll_xorb hk hi hbytes
  rw [List.map_replicate] at hxorbs
  refine ⟨drawAt w hw v, _, v.cache[w], v.cache[w + 1], hnext, ?_, hxorbs, rfl, rfl⟩
  rw [drawAt_outbox, hout]
  rfl

end Sys2Proof.Machine
end

section
/-! SUPPORT. Decoding and encoding are inverse (R45, R48, R49): a packet decodes to a command exactly when it is the packet of
that command and the command is well formed (`decode_eq_ok_iff`); and which headers select which command (R48). -/

namespace Sys2Proof

/-! ## Reserved header bits (R45) -/

/-- The bits of a vector from bit `k` up are zero when the vector ANDed with a mask of just those bits is. -/
theorem and_bits_from_eq_zero_iff {n : Nat} (w : BitVec n) (k : Nat) :
    w &&& (BitVec.allOnes n <<< k) = 0 ↔ w.extractLsb' k (n - k) = 0 := by
  constructor
  · intro h
    ext i hi
    have hbit := congrArg (·.getLsbD (k + i)) h
    have hlt : k + i < n := by omega
    simpa [hlt] using hbit
  · intro h
    ext i hi
    have hbit := congrArg (·.getLsbD (i - k)) h
    by_cases hk : k ≤ i
    · have hlt : i - k < n - k := by omega
      simpa [hlt, hk, hi, Nat.not_lt.mpr hk] using hbit
    · simp [Nat.lt_of_not_le hk]

theorem and_arg_mask_eq_zero_iff (hdr : Word) : hdr &&& 0xFFFFFF00 = 0 ↔ argField hdr = 0 :=
  and_bits_from_eq_zero_iff hdr 8

theorem and_upper_arg_mask_eq_zero_iff (hdr : Word) : hdr &&& 0xFFFF0000 = 0 ↔ hdr.extractLsb' 16 16 = (0 : BitVec 16) :=
  and_bits_from_eq_zero_iff hdr 16

/-- An `arg` whose upper sixteen bits are zero is its byte (R45, format B). -/
theorem argField_eq_byteField {hdr : Word} (h : hdr.extractLsb' 16 16 = (0 : BitVec 16)) :
    argField hdr = (byteField hdr).setWidth 24 := by
  ext i hi
  by_cases hlt : i < 8
  · simp [argField, byteField, hlt]
  · have hbit := congrArg (·.getLsbD (i - 8)) h
    have hadd : 16 + (i - 8) = 8 + i := by omega
    have hlt' : i - 8 < 16 := by omega
    simpa [argField, byteField, hlt, hlt', hadd] using hbit

/-! ## A packet and its command (R45, R48, R49) -/

theorem decodePacket_of_ofCode {hdr : Word} {pay : List Word} {o : Op} (ho : Op.ofCode (opField hdr) = some o)
    (hres : hdr &&& o.reserved = 0) : decodePacket hdr pay = assemble o hdr pay := by
  simp only [decodePacket, ho, if_pos hres]

theorem decodePacket_eq_ok {hdr : Word} {pay : List Word} {i : Instr} (h : decodePacket hdr pay = .ok i) :
    ∃ o, Op.ofCode (opField hdr) = some o ∧ hdr &&& o.reserved = 0 ∧ assemble o hdr pay = .ok i := by
  unfold decodePacket at h
  split at h
  · cases h
  · next o ho =>
    split at h
    · exact ⟨o, ho, ‹_›, h⟩
    · cases h

theorem orWrongLength_eq_ok_iff {c : Option Instr} {i : Instr} : orWrongLength c = .ok i ↔ c = some i := by
  cases c <;> simp [orWrongLength]

theorem takeVector_eq_some_iff {n : Nat} {pay : List Word} {v : Vector Word n} :
    takeVector n pay = some v ↔ v.toList = pay :=
  ⟨toList_of_takeVector, fun h => h ▸ takeVector_toList v⟩

/-- The operands of an assembled command are all of its packet: the opcode, the `arg`, the payload. -/
theorem assemble_eq_ok {o : Op} {hdr : Word} {pay : List Word} {i : Instr} (h : assemble o hdr pay = .ok i)
    (hres : hdr &&& o.reserved = 0) : i.op = o ∧ i.arg = argField hdr ∧ i.payload = pay ∧ i.wf = true := by
  cases o <;>
    simp only [assemble, orWrongLength_eq_ok_iff, Option.map_eq_some_iff, Option.ite_none_right_eq_some,
      takeVector_eq_some_iff, List.isEmpty_iff, hasLength_iff, Option.some.injEq] at h
  case setkey | setiv | setstate =>
    obtain ⟨v, hv, rfl⟩ := h
    exact ⟨rfl, ((and_arg_mask_eq_zero_iff hdr).mp hres).symm, hv, rfl⟩
  case step | next | getstate | status =>
    obtain ⟨rfl, rfl⟩ := h
    exact ⟨rfl, ((and_arg_mask_eq_zero_iff hdr).mp hres).symm, rfl, rfl⟩
  case xorb =>
    obtain ⟨rfl, rfl⟩ := h
    exact ⟨rfl, (argField_eq_byteField ((and_upper_arg_mask_eq_zero_iff hdr).mp hres)).symm, rfl, rfl⟩
  case xorbuf =>
    obtain ⟨hlen, rfl⟩ := h
    exact ⟨rfl, rfl, rfl, by simpa [Instr.wf] using hlen⟩

/-- A well-formed command is assembled from its own header and payload. -/
theorem assemble_encode {i : Instr} (hwf : i.wf = true) : assemble i.op (header i.op i.arg) i.payload = .ok i := by
  cases i with
  | setkey | setiv | setstate => simp [Instr.op, Instr.payload, assemble, orWrongLength]
  | step | next | getstate | status => rfl
  | xorb byte => simp [Instr.op, Instr.arg, Instr.payload, assemble, orWrongLength]
  | xorbuf len pay =>
    have hlen : hasLength pay (ceil4 len.toNat) = true := by simpa [hasLength_iff, Instr.wf] using hwf
    simp [Instr.op, Instr.arg, Instr.payload, assemble, orWrongLength, hlen]

/-- A packet decodes to a command exactly when it is that command's encoding and the command is well formed. -/
theorem decode_eq_ok_iff {packet : List Word} {i : Instr} : decode packet = .ok i ↔ encode i = packet ∧ i.wf = true := by
  constructor
  · intro h
    cases packet with
    | nil => cases h
    | cons hdr pay =>
      obtain ⟨o, ho, hres, hasm⟩ := decodePacket_eq_ok h
      obtain ⟨rfl, harg, hpay, hwf⟩ := assemble_eq_ok hasm hres
      rw [encode, harg, header_of_fields (Op.code_of_ofCode ho).symm, hpay]
      exact ⟨rfl, hwf⟩
  · rintro ⟨rfl, hwf⟩
    calc decodePacket (header i.op i.arg) i.payload
        = assemble i.op (header i.op i.arg) i.payload := decodePacket_of_ofCode (by simp) (reserved_header i)
      _ = .ok i := assemble_encode hwf

/-- Settles O1: a well-formed command's packet is its encoding, so it decodes to the command. -/
theorem decodeEncodeRoundTrip : Obligations.DecodeEncodeRoundTrip := fun _ hwf => decode_eq_ok_iff.mpr ⟨rfl, hwf⟩

/-- Settles O2, the other direction of the same equivalence. -/
theorem decodedPacketIsItsEncoding : Obligations.DecodedPacketIsItsEncoding := fun _ _ => decode_eq_ok_iff.mp

end Sys2Proof
end

section
/-! SUPPORT. Which header selects which command (R46, R48, R50): a whole packet decodes to a command of an opcode exactly when
its header has that opcode's match under its mask. -/

namespace Sys2Proof

open Machine

/-! ## Match and mask (R48) -/

theorem and_opcode_mask (hdr : Word) : hdr &&& 0x000000FF = (opField hdr).setWidth 32 := by
  ext i hi
  interval_cases i <;> simp [opField]

/-- No opcode bit is a reserved bit. -/
theorem opcode_and_reserved (b : Byte) (o : Op) : b.setWidth 32 &&& o.reserved = 0 := by
  have hfrom (k : Nat) (hk : 8 ≤ k) : b.setWidth 32 &&& (BitVec.allOnes 32 <<< k) = 0 := by
    rw [and_bits_from_eq_zero_iff]
    ext i hi
    simp [BitVec.getLsbD_of_ge b (k + i) (by omega)]
  cases o with
  | xorb => exact hfrom 16 (by decide)
  | xorbuf => exact BitVec.and_zero
  | setkey | setiv | step | next | getstate | setstate | status => exact hfrom 8 (by decide)

/-- A header has the match of a row under its mask when it has the row's opcode and no reserved bit is set. -/
theorem and_mask_eq_matchWord_iff {hdr : Word} {o : Op} :
    hdr &&& o.mask = o.matchWord ↔ opField hdr = o.code ∧ hdr &&& o.reserved = 0 := by
  have hsplit : hdr &&& o.mask = (opField hdr).setWidth 32 ||| (hdr &&& o.reserved) := by
    rw [Op.mask, BitVec.and_or_distrib_left, and_opcode_mask]
  rw [hsplit, Op.matchWord]
  constructor
  · intro h
    have hres : hdr &&& o.reserved = 0 := by
      have := congrArg (· &&& o.reserved) h
      simpa [BitVec.and_or_distrib_right, opcode_and_reserved, BitVec.and_assoc] using this
    rw [hres, BitVec.ofNat_eq_ofNat, BitVec.or_zero] at h
    exact ⟨by simpa using congrArg (·.setWidth 8) h, hres⟩
  · rintro ⟨hop, hres⟩
    rw [hop, hres, BitVec.ofNat_eq_ofNat, BitVec.or_zero]

/-! ## Whole packets (R46, R50) -/

/-- A packet of the right length with a legal header decodes to a command of the header's opcode. -/
theorem decode_of_length {hdr : Word} {pay : List Word} {o : Op} (ho : Op.ofCode (opField hdr) = some o)
    (hres : hdr &&& o.reserved = 0) (hlen : pay.length = paylen hdr) :
    ∃ i : Instr, decode (hdr :: pay) = .ok i ∧ i.op = o := by
  have hwords : pay.length = o.payloadWords hdr := by rw [hlen, paylen, ho]
  obtain ⟨i, hi⟩ := assemble_of_length hwords
  obtain ⟨hop, -⟩ := assemble_eq_ok hi hres
  exact ⟨i, (decodePacket_of_ofCode ho hres).trans hi, hop⟩

theorem decode_op_iff {hdr : Word} {pay : List Word} (o : Op) (hlen : pay.length = paylen hdr) :
    (∃ i : Instr, decode (hdr :: pay) = .ok i ∧ i.op = o) ↔ hdr &&& o.mask = o.matchWord := by
  rw [and_mask_eq_matchWord_iff]
  constructor
  · rintro ⟨i, hi, rfl⟩
    obtain ⟨o, ho, hres, hasm⟩ := decodePacket_eq_ok hi
    obtain ⟨rfl, -⟩ := assemble_eq_ok hasm hres
    exact ⟨(Op.code_of_ofCode ho).symm, hres⟩
  · rintro ⟨hop, hres⟩
    exact decode_of_length (by rw [hop, Op.ofCode_code]) hres hlen

/-- Some command of the opcode has the property: the operands are what the quantifier ranges over. -/
def SomeCommand (P : Instr → Prop) : Op → Prop
  | .setkey => ∃ k, P (.setkey k)
  | .setiv => ∃ iv, P (.setiv iv)
  | .step => P .step
  | .next => P .next
  | .xorb => ∃ byte, P (.xorb byte)
  | .xorbuf => ∃ len pay, P (.xorbuf len pay)
  | .getstate => P .getstate
  | .setstate => ∃ blob, P (.setstate blob)
  | .status => P .status

theorem someCommand_iff {P : Instr → Prop} {o : Op} : SomeCommand P o ↔ ∃ i : Instr, P i ∧ i.op = o := by
  constructor
  · intro h
    cases o with
    | step | next | getstate | status => exact ⟨_, h, rfl⟩
    | setkey | setiv | xorb | setstate =>
      obtain ⟨_, h⟩ := h
      exact ⟨_, h, rfl⟩
    | xorbuf =>
      obtain ⟨_, _, h⟩ := h
      exact ⟨_, h, rfl⟩
  · rintro ⟨i, h, rfl⟩
    cases i with
    | step | next | getstate | status => exact h
    | setkey | setiv | xorb | setstate => exact ⟨_, h⟩
    | xorbuf => exact ⟨_, _, h⟩

/-- Settles O4: each row is `decode_op_iff` of its opcode; the payload of an `XORBUF` is the packet's. -/
theorem headerMatchSelectsCommand : Obligations.HeaderMatchSelectsCommand := by
  intro hdr pay hlen
  have row (o : Op) : SomeCommand (fun i => decode (hdr :: pay) = .ok i) o ↔ hdr &&& o.mask = o.matchWord :=
    someCommand_iff.trans (decode_op_iff o hlen)
  have hxorbuf : (∃ len, decode (hdr :: pay) = .ok (.xorbuf len pay)) ↔
      SomeCommand (fun i => decode (hdr :: pay) = .ok i) .xorbuf := by
    constructor
    · rintro ⟨len, h⟩
      exact ⟨len, pay, h⟩
    · rintro ⟨len, pay', h⟩
      obtain ⟨hencode, -⟩ := decode_eq_ok_iff.mp h
      obtain rfl : pay' = pay := (List.cons.inj hencode).2
      exact ⟨len, h⟩
  exact ⟨row .setkey, row .setiv, row .step, row .next, row .xorb, hxorbuf.trans (row .xorbuf), row .getstate,
    row .setstate, row .status⟩

/-- Settles O3: an opcode byte that selects a command is its code, and one that selects none is no command's code. -/
theorem payloadLengthOfHeader : Obligations.PayloadLengthOfHeader := by
  intro hdr
  change paylen hdr = if opField hdr = Op.setkey.code then 8 else if opField hdr = Op.setiv.code then 2
    else if opField hdr = Op.setstate.code then 33 else if opField hdr = Op.xorbuf.code then ceil4 (argField hdr).toNat
    else 0
  cases ho : Op.ofCode (opField hdr) with
  | none =>
    have hne (o : Op) : opField hdr ≠ o.code := fun h => by simp [h] at ho
    simp [paylen, ho, hne]
  | some o =>
    rw [paylen, ho, ← Op.code_of_ofCode ho]
    cases o <;> rfl

/-- Settles O5: each packet by evaluating the decoder on it. -/
theorem packetsDecodeAsTabulated : Obligations.PacketsDecodeAsTabulated :=
  ⟨rfl, rfl, rfl, rfl, rfl, rfl, rfl, rfl, rfl, rfl⟩

end Sys2Proof
end

section
/-! SUPPORT. How the port and the hardware answer a packet (R46, R47, R50): a packet that is not complete waits, and a complete
one has one response, its status the first check that fails. -/

namespace Sys2Proof.Machine

/-! ## Waiting (R46, R131) -/

/-- Settles O10: with no header, or words missing behind it, the port is idle. -/
theorem incompletePacketHoldsThePort : Obligations.IncompletePacketHoldsThePort := by
  intro s
  have wait (h : fetch s.input = .idle) : step s = .next s := by rw [step, h]
  refine ⟨fun hin => wait (by rw [hin, fetch]), fun hdr words hin hlt => wait ?_⟩
  rw [hin, fetch, gather_incomplete hdr _ _ _ hlt]

/-! ## The checks of the decoder (R50, steps 1 and 2) -/

theorem runPacket_of_illegal {hdr : Word} {pay : List Word} (h : Op.ofCode (opField hdr) = none) (s : State) :
    runPacket hdr pay s = .next (raiseError .illegalOpcode (opField hdr) s) := by
  simp only [runPacket, decodePacket, h]

theorem runPacket_of_reserved {hdr : Word} {pay : List Word} {o : Op} (ho : Op.ofCode (opField hdr) = some o)
    (hres : hdr &&& o.reserved ≠ 0) (s : State) :
    runPacket hdr pay s = .next (raiseError .reservedField (opField hdr) s) := by
  simp only [runPacket, decodePacket, ho, if_neg hres]

/-- The reserved bits of a legal header, as R50 names them by opcode. -/
theorem reserved_ne_zero_iff {hdr : Word} {o : Op} (h : opField hdr = o.code) :
    hdr &&& o.reserved ≠ 0 ↔
      (opField hdr ∈ [(0x01 : Byte), 0x02, 0x03, 0x04, 0x07, 0x08, 0x09] ∧ argField hdr ≠ 0) ∨
      (opField hdr = 0x05 ∧ hdr.extractLsb' 16 16 ≠ (0 : BitVec 16)) := by
  rw [h]
  cases o with
  | xorb => simpa [Op.code, Op.reserved] using not_congr (and_upper_arg_mask_eq_zero_iff hdr)
  | xorbuf => simp [Op.code, Op.reserved]
  | setkey | setiv | step | next | getstate | setstate | status =>
    simpa [Op.code, Op.reserved] using not_congr (and_arg_mask_eq_zero_iff hdr)

/-! ## The checks of a command (R50, steps 3 and 4) -/

theorem code_mem_iff_readyOps (o : Op) : o.code ∈ [(0x03 : Byte), 0x04, 0x05, 0x06, 0x07] ↔ o ∈ readyOps := by
  cases o <;> decide

theorem code_eq_setstate_iff (o : Op) : o.code = 0x08 ↔ o = .setstate := by
  cases o <;> decide

theorem blobCursor_eq_getD (blob : Vector Word 33) : blobCursor blob = blob.toList.getD 32 0 := by
  simp [blobCursor]

/-- The status a legal packet without reserved bits is answered with (R50, steps 3 to 5). -/
def commandStatus (op : Byte) (pay : List Word) (s : State) : Byte :=
  if op ∈ [(0x03 : Byte), 0x04, 0x05, 0x06, 0x07] ∧ ¬(s.keyValid = true ∧ s.ivValid = true) then 0x03
  else if op = 0x08 ∧ 64 < pay.getD 32 0 then 0x04
  else 0x00

theorem commandStatus_of_not_ready {o : Op} {s : State} (pay : List Word) (guarded : o ∈ readyOps)
    (unready : s.ready = false) : commandStatus o.code pay s = 0x03 :=
  if_pos ⟨(code_mem_iff_readyOps o).mpr guarded, fun h => by simp [(ready_iff s).mpr h] at unready⟩

theorem commandStatus_ok {o : Op} {s : State} (pay : List Word) (ready : o ∈ readyOps → s.ready = true)
    (hop : o ≠ .setstate) : commandStatus o.code pay s = 0x00 := by
  have hready : ¬(o.code ∈ [(0x03 : Byte), 0x04, 0x05, 0x06, 0x07] ∧ ¬(s.keyValid = true ∧ s.ivValid = true)) :=
    fun ⟨hmem, hnot⟩ => hnot ((ready_iff s).mp (ready ((code_mem_iff_readyOps o).mp hmem)))
  have hcode : o.code ≠ 0x08 := mt (code_eq_setstate_iff o).mp hop
  rw [commandStatus, if_neg hready, if_neg fun h => hcode h.1]

theorem commandStatus_setstate (blob : Vector Word 33) (s : State) :
    commandStatus Op.setstate.code blob.toList s = if 64 < blobCursor blob then 0x04 else 0x00 := by
  simp [commandStatus, blobCursor_eq_getD, Op.code]

/-- The answer `t` to a packet in state `s`: one response, of that status and that opcode echoed, and no change of state with
an error (R47, R106). -/
def AnsweredWith (status echo : Byte) (s t : State) : Prop :=
  t.input = s.input ∧ ∃ data : List Word, t.outbox = s.outbox ++ [responseWord status echo :: data] ∧
    (status ≠ 0x00 → data = [] ∧ t = { s with outbox := t.outbox })

theorem raiseError_answeredWith (e : ErrorCode) (echo : Byte) (s : State) :
    AnsweredWith e.code echo s (raiseError e echo s) :=
  ⟨rfl, [], rfl, fun _ => ⟨rfl, rfl⟩⟩

theorem respond_answeredWith {s t : State} (o : Op) (data : List Word) (hin : t.input = s.input)
    (hout : t.outbox = s.outbox) : AnsweredWith 0x00 o.code s (respond o data t) :=
  ⟨hin, data, by rw [respond_outbox, hout], fun h => absurd rfl h⟩

/-- Every command is answered with one response of its status. -/
theorem Answers.answeredWith {i : Instr} {s t : State} (h : Answers s i t) :
    AnsweredWith (commandStatus i.op.code i.payload s) i.op.code s t := by
  cases h with
  | setkey | setiv | status =>
    rw [commandStatus_ok _ (fun guarded => absurd guarded (by simp [Instr.op, readyOps])) (by simp [Instr.op])]
    exact respond_answeredWith _ _ rfl rfl
  | step ready | draw ready | refillDraw ready | getstate ready =>
    rw [commandStatus_ok _ (fun _ => ready) (by decide)]
    exact respond_answeredWith _ _ rfl rfl
  | xorb ready run =>
    obtain ⟨⟨-, -, -, hin, hout⟩, -⟩ := xorByte_some run
    rw [commandStatus_ok _ (fun _ => ready) (by simp [Instr.op])]
    exact respond_answeredWith _ _ hin hout
  | xorbuf ready run =>
    obtain ⟨-, -, -, hin, hout, -⟩ := xorBytes_some run
    rw [commandStatus_ok _ (fun _ => ready) (by simp [Instr.op])]
    exact respond_answeredWith _ _ hin hout
  | @setstate blob cursor =>
    rw [Instr.op, Instr.payload, commandStatus_setstate, if_neg cursor]
    exact respond_answeredWith _ _ (loadBlob_input blob s) (loadBlob_outbox blob s)
  | badState cursor =>
    rw [Instr.op, Instr.payload, commandStatus_setstate, if_pos cursor]
    exact raiseError_answeredWith _ _ s
  | uninit unready guarded =>
    rw [commandStatus_of_not_ready _ guarded unready]
    exact raiseError_answeredWith _ _ s

/-- Settles O9: the branches of the decoder are R50's first two checks, and a command has the status of the other three. -/
theorem packetIsAnsweredInCheckOrder : Obligations.PacketIsAnsweredInCheckOrder := by
  intro s hdr pay rest hs hin hlen op status
  suffices h : ∃ t, runPacket hdr pay { s with input := rest } = .next t ∧
      AnsweredWith status op { s with input := rest } t by
    obtain ⟨t, hrun, hinput, data, hout, herror⟩ := h
    exact ⟨t, data, (step_of_packet hin hlen).trans hrun, hinput, hout, herror⟩
  cases ho : Op.ofCode (opField hdr) with
  | none =>
    have hstatus : status = 0x01 := if_pos (Op.ofCode_eq_none.mp ho)
    rw [hstatus]
    exact ⟨_, runPacket_of_illegal ho _, raiseError_answeredWith _ _ _⟩
  | some o =>
    have hcode : opField hdr = o.code := (Op.code_of_ofCode ho).symm
    have hlegal : ¬(op = 0x00 ∨ 0x0A ≤ op) := fun h =>
      Option.some_ne_none o (ho.symm.trans (Op.ofCode_eq_none.mpr h))
    by_cases hres : hdr &&& o.reserved = 0
    · obtain ⟨i, hi, rfl⟩ := decode_of_length ho hres hlen
      obtain ⟨hencode, -⟩ := decode_eq_ok_iff.mp hi
      obtain ⟨-, hpay⟩ := List.cons.inj hencode
      obtain ⟨t, ht⟩ := exists_next_exec i (s := { s with input := rest }) hs
      have hstatus : status = commandStatus op pay { s with input := rest } :=
        (if_neg hlegal).trans (if_neg (mt (reserved_ne_zero_iff hcode).mpr (not_not_intro hres)))
      refine ⟨t, (runPacket_of_decode hi _).trans ht, ?_⟩
      rw [hstatus, show op = i.op.code from hcode, ← hpay]
      exact (answers_of_exec ht).answeredWith
    · have hstatus : status = 0x02 := (if_neg hlegal).trans (if_pos ((reserved_ne_zero_iff hcode).mp hres))
      rw [hstatus]
      exact ⟨_, runPacket_of_reserved ho hres _, raiseError_answeredWith _ _ _⟩

end Sys2Proof.Machine
end

section
/-! SUPPORT. The pseudo-instructions (R54, R55, R59): `SETSEED` is a key load and an IV load; `ENCRYPT` of a buffer runs the
byte steps of the buffer, whatever its pieces. -/

namespace Sys2Proof.Machine

/-! ## `SETSEED` (R59) -/

/-- `SETKEY` and then `SETIV` answer the state with both loads done. -/
theorem execAll_setkey_setiv (k : Vector Word 8) (iv : Vector Word 2) (s : State) :
    execAll [.setkey k, .setiv iv] s =
      .next (respond .setiv [] (loadIv iv (respond .setkey [] (loadKey k s)))) := rfl

/-- Both loads write every core word, so nothing of the state before is left in them (R69). -/
theorem core_of_loadKey_loadIv (k : Vector Word 8) (iv : Vector Word 2) (s : State) :
    (loadIv iv (respond .setkey [] (loadKey k s))).core =
      #v[sigma[0], k[0], k[1], k[2], k[3], sigma[1], iv[0], iv[1], 0, 0, sigma[2], k[4], k[5], k[6], k[7], sigma[3]] :=
  rfl

/-- Both loads put the stream at byte 0 (R59). -/
theorem streamAt_loadKey_loadIv (k : Vector Word 8) (iv : Vector Word 2) (s : State) :
    StreamAt (loadIv iv (respond .setkey [] (loadKey k s))) 0 :=
  StreamAt.loadIv iv rfl

/-- Settles O17: the key load, then the IV load, after which the stream is at byte 0. -/
theorem setseedLoadsKeyThenIv : Obligations.SetseedLoadsKeyThenIv := by
  intro s seed
  refine ⟨rfl, _, execAll_setkey_setiv _ _ s, ?_⟩
  exact ⟨(ready_iff _).mpr ⟨rfl, rfl⟩, (streamAt_loadKey_loadIv _ _ s).counter, rfl, core_of_loadKey_loadIv _ _ s⟩

/-! ## The pieces of a buffer (R54) -/

theorem flatten_cutBuffer (n : Nat) (msg : List Byte) : (cutBuffer n msg).flatten = msg := by
  induction n generalizing msg with
  | zero => simp [cutBuffer]
  | succ n ih =>
    rw [cutBuffer]
    split
    · simp
    · rw [List.flatten_cons, ih, List.take_append_drop]

theorem cutBuffer_of_fits {msg : List Byte} (n : Nat) (h : msg.length ≤ Config.maxLen) : cutBuffer n msg = [msg] := by
  cases n with
  | zero => rfl
  | succ n => rw [cutBuffer, if_pos h]

/-- With cuts enough, no piece is longer than a packet can carry. -/
theorem length_le_of_mem_cutBuffer {n : Nat} {msg piece : List Byte} (hcuts : msg.length ≤ n + Config.maxLen)
    (h : piece ∈ cutBuffer n msg) : piece.length ≤ Config.maxLen := by
  induction n generalizing msg with
  | zero =>
    obtain rfl : piece = msg := by simpa [cutBuffer] using h
    omega
  | succ n ih =>
    rw [cutBuffer] at h
    split at h
    · obtain rfl : piece = msg := by simpa using h
      assumption
    · obtain rfl | hrest := List.mem_cons.mp h
      · exact List.length_take_le _ _
      · have hpos : 1 ≤ Config.maxLen := by decide
        exact ih (by rw [List.length_drop]; omega) hrest

/-! ## The commands of the pieces (R54, R87) -/

/-- The byte steps of two messages one after the other, taken apart (R89). -/
theorem xorBytes_append_some {a b out : List Byte} {s u : State} (h : xorBytes (a ++ b) s = some (out, u)) :
    ∃ x y t, xorBytes a s = some (x, t) ∧ xorBytes b t = some (y, u) ∧ out = x ++ y := by
  induction a generalizing s out with
  | nil => exact ⟨[], out, s, rfl, h, rfl⟩
  | cons c cs ih =>
    obtain ⟨o, os, v, hc, hrest, rfl⟩ := xorBytes_cons_some h
    obtain ⟨x, y, t, hx, hy, rfl⟩ := ih hrest
    exact ⟨o :: x, y, t, xorBytes_cons hc hx, hy, rfl⟩

theorem exec_bufferCommand_of_ready {msg out : List Byte} {s t : State} (hk : s.keyValid = true) (hi : s.ivValid = true)
    (hlen : msg.length ≤ Config.maxLen) (run : xorBytes msg s = some (out, t)) :
    exec (bufferCommand msg) s = .next (respond .xorbuf (packBytes out) t) := by
  simp only [bufferCommand, exec, execXorbuf, requireReady_of_ready hk hi, messageBytes_bufferCommand hlen, run]

theorem outputBytes_cons (piece : List Byte) (response : List Word) (pieces : List (List Byte))
    (responses : List (List Word)) :
    outputBytes (piece :: pieces) (response :: responses) =
      dataBytes piece.length response.tail ++ outputBytes pieces responses := rfl

/-- One `XORBUF` per piece: the byte steps of the whole buffer, whose output bytes are in the responses. -/
theorem execAll_bufferCommands {pieces : List (List Byte)} {out : List Byte} {s t : State} (hk : s.keyValid = true)
    (hi : s.ivValid = true) (hlen : ∀ piece ∈ pieces, piece.length ≤ Config.maxLen)
    (run : xorBytes pieces.flatten s = some (out, t)) :
    ∃ responses, execAll (pieces.map bufferCommand) s = .next { t with outbox := s.outbox ++ responses } ∧
      outputBytes pieces responses = out := by
  induction pieces generalizing s t out with
  | nil =>
    cases run
    exact ⟨[], by simp [execAll], rfl⟩
  | cons piece pieces ih =>
    obtain ⟨hpiece, hpieces⟩ := List.forall_mem_cons.mp hlen
    obtain ⟨x, y, u, hx, hy, rfl⟩ := xorBytes_append_some run
    obtain ⟨hxlen, huk, hui, -, hout, -⟩ := xorBytes_some hx
    obtain ⟨responses, hrest, hbytes⟩ :=
      ih (s := respond .xorbuf (packBytes x) u) (huk.trans hk) (hui.trans hi) hpieces (xorBytes_send _ hy)
    refine ⟨(responseWord 0x00 Op.xorbuf.code :: packBytes x) :: responses, ?_, ?_⟩
    · rw [respond_outbox, hout, List.append_assoc] at hrest
      simp only [List.map_cons, execAll, exec_bufferCommand_of_ready hk hi hpiece hx]
      exact hrest
    · rw [outputBytes_cons, hbytes, List.tail_cons, dataBytes, ← hxlen, take_packBytes]

/-- Settles O33: the commands of the pieces and the single `XORB` commands are the same byte steps. -/
theorem encryptGivesTheBytesOfSingleXors : Obligations.EncryptGivesTheBytesOfSingleXors := by
  intro s message hk hi hs
  have hflatten : (encryptPieces message).flatten = message := flatten_cutBuffer _ _
  have hlen : ∀ piece ∈ encryptPieces message, piece.length ≤ Config.maxLen :=
    fun _ => length_le_of_mem_cutBuffer (Nat.le_add_right _ _)
  have hone (hfits : message.length ≤ Config.maxLen) : encryptCommands message = [bufferCommand message] := by
    rw [encryptCommands, encryptPieces, cutBuffer_of_fits _ hfits, List.map_singleton]
  obtain ⟨out, t, run⟩ := xorBytes_isSome message ((cursorInRange_iff s).mp hs)
  obtain ⟨responses, hpieces, hbytes⟩ := execAll_bufferCommands hk hi hlen (hflatten.symm ▸ run)
  exact ⟨hflatten, hlen, hone, rfl, _, _, responses, out, hpieces, rfl, execAll_xorb hk hi run, rfl, hbytes, rfl⟩

end Sys2Proof.Machine
end

section
/-! SUPPORT. The loads of the key and of the IV (R66, R67), and that both orders of the two leave the Salsa layout (R69). -/

namespace Sys2Proof.Machine

/-! ## The core words after one load (R66, R67) -/

/-- A key load writes the constants and the key words around the IV and counter words (R65, R66). -/
theorem loadKey_core (k : Vector Word 8) (s : State) :
    (loadKey k s).core =
      #v[sigma[0], k[0], k[1], k[2], k[3], sigma[1], s.core[6], s.core[7],
         s.core[8], s.core[9], sigma[2], k[4], k[5], k[6], k[7], sigma[3]] := rfl

/-- An IV load writes the four words in the middle of the layout (R67). -/
theorem loadIv_core_words (iv : Vector Word 2) (s : State) :
    (loadIv iv s).core =
      #v[s.core[0], s.core[1], s.core[2], s.core[3], s.core[4], s.core[5], iv[0], iv[1],
         0, 0, s.core[10], s.core[11], s.core[12], s.core[13], s.core[14], s.core[15]] := by
  ext n hn : 1
  by_cases hwritten : 5 < n ∧ n < 10
  · obtain ⟨h5, h10⟩ := hwritten
    interval_cases n <;> simp
  · have hother : n < 6 ∨ 9 < n := by omega
    rw [loadIv_core_other iv s hn hother]
    obtain h | h := hother <;> interval_cases n <;> rfl

/-! ## The two commands (R66, R67) -/

theorem exec_setkey (k : Vector Word 8) (s : State) : exec (.setkey k) s = .next (respond .setkey [] (loadKey k s)) := rfl

theorem exec_setiv (iv : Vector Word 2) (s : State) : exec (.setiv iv) s = .next (respond .setiv [] (loadIv iv s)) := rfl

/-- Settles O14: the response joins the outbox, and the key load, which is defined by its sixteen words, is the rest. -/
theorem setkeyLoadsKeyAndConstants : Obligations.SetkeyLoadsKeyAndConstants := by
  intro s k
  rw [exec_setkey]
  rfl

/-- Settles O15: the response joins the outbox, and the IV load is the rest, its core words written out. -/
theorem setivLoadsIvAndEmptiesCache : Obligations.SetivLoadsIvAndEmptiesCache := by
  intro s iv
  rw [exec_setiv, ← loadIv_core_words]
  rfl

/-! ## Both orders of the two loads (R69) -/

/-- `SETIV` and then `SETKEY` answer the state with both loads done. -/
theorem execAll_setiv_setkey (k : Vector Word 8) (iv : Vector Word 2) (s : State) :
    execAll [.setiv iv, .setkey k] s =
      .next (respond .setkey [] (loadKey k (respond .setiv [] (loadIv iv s)))) := rfl

/-- The key load keeps the words the IV load wrote, so this order leaves the layout of `core_of_loadKey_loadIv` too. -/
theorem core_of_loadIv_loadKey (k : Vector Word 8) (iv : Vector Word 2) (s : State) :
    (loadKey k (respond .setiv [] (loadIv iv s))).core =
      #v[sigma[0], k[0], k[1], k[2], k[3], sigma[1], iv[0], iv[1], 0, 0, sigma[2], k[4], k[5], k[6], k[7], sigma[3]] := by
  rw [loadKey_core, respond_core, loadIv_core_words]
  rfl

/-- Settles O16: either order leaves the layout; a key load alone keeps the words 8 and 9, the cache and the cursor. -/
theorem keyAndIvGiveTheSalsaLayout : Obligations.KeyAndIvGiveTheSalsaLayout := by
  intro s k iv
  refine ⟨⟨_, execAll_setkey_setiv k iv s, ?_⟩, ⟨_, execAll_setiv_setkey k iv State.reset, ?_⟩, ⟨_, exec_setkey k s, ?_⟩⟩
  · exact ⟨core_of_loadKey_loadIv k iv s, rfl, rfl, rfl, rfl⟩
  · exact ⟨core_of_loadIv_loadKey k iv State.reset, rfl, rfl, rfl, rfl⟩
  · exact ⟨loadKey_core_other k s (by decide), loadKey_core_other k s (by decide), loadKey_cache k s, loadKey_cur k s⟩

end Sys2Proof.Machine
end

section
/-! SUPPORT. The core function (R70 to R75): the quarter-round and its inverse, the index groups of the two passes, the block,
and what a refill and `STEP` (R77, R78) do to the state. -/

namespace Sys2Proof.Machine

/-! ## The quarter-round (R70) -/

theorem rotl_eq_rotateLeft (a : Word) {n : Nat} (hn : n < 32) : rotl a n = a.rotateLeft n := by
  rw [BitVec.rotateLeft_eq_rotateLeftAux_of_lt hn]
  rfl

theorem quarterRound_zero : quarterRound 0 0 0 0 = (0, 0, 0, 0) := by decide

/-- The four steps undone, last step first (R70): the two words a step added are there again when its turn comes. -/
def quarterRoundInverse (z0 z1 z2 z3 : Word) : Word × Word × Word × Word :=
  let y0 := z0 ^^^ rotl (z3 + z2) 18
  let y3 := z3 ^^^ rotl (z2 + z1) 13
  let y2 := z2 ^^^ rotl (z1 + y0) 9
  let y1 := z1 ^^^ rotl (y0 + y3) 7
  (y0, y1, y2, y3)

/-- A step XORs a word into another; the same word XORed in again takes it out. -/
theorem xor_xor_cancel (y r : Word) : y ^^^ r ^^^ r = y := by
  rw [BitVec.xor_assoc, BitVec.xor_self, BitVec.xor_zero]

theorem quarterRoundInverse_quarterRound {y0 y1 y2 y3 z0 z1 z2 z3 : Word}
    (h : quarterRound y0 y1 y2 y3 = (z0, z1, z2, z3)) : quarterRoundInverse z0 z1 z2 z3 = (y0, y1, y2, y3) := by
  cases h
  simp only [quarterRoundInverse, xor_xor_cancel]

theorem quarterRound_quarterRoundInverse {y0 y1 y2 y3 z0 z1 z2 z3 : Word}
    (h : quarterRoundInverse z0 z1 z2 z3 = (y0, y1, y2, y3)) : quarterRound y0 y1 y2 y3 = (z0, z1, z2, z3) := by
  cases h
  simp only [quarterRound, xor_xor_cancel]

theorem quarterRound_bijective :
    Function.Bijective fun y : Word × Word × Word × Word => quarterRound y.1 y.2.1 y.2.2.1 y.2.2.2 :=
  Function.bijective_iff_has_inverse.mpr
    ⟨fun z => quarterRoundInverse z.1 z.2.1 z.2.2.1 z.2.2.2, fun _ => quarterRoundInverse_quarterRound rfl,
      fun _ => quarterRound_quarterRoundInverse rfl⟩

/-- Settles O18: the model's rotation is the library's, and the inverse undoes the four steps. -/
theorem quarterRoundStepsAndBijection : Obligations.QuarterRoundStepsAndBijection := by
  refine ⟨fun y0 y1 y2 y3 z0 z1 z2 z3 h => ?_, quarterRound_zero, by decide, quarterRound_bijective⟩
  cases h
  exact ⟨congrArg (y1 ^^^ ·) (rotl_eq_rotateLeft _ (by decide)), congrArg (y2 ^^^ ·) (rotl_eq_rotateLeft _ (by decide)),
    congrArg (y3 ^^^ ·) (rotl_eq_rotateLeft _ (by decide)), congrArg (y0 ^^^ ·) (rotl_eq_rotateLeft _ (by decide))⟩

/-! ## The two passes (R71, R72) -/

/-- Settles O19: each group of a pass is one quarter-round of the input's words. -/
theorem roundsUseTheirIndexGroups : Obligations.RoundsUseTheirIndexGroups := fun _ =>
  ⟨⟨rfl, rfl, rfl, rfl⟩, rfl, rfl, rfl, rfl⟩

/-! ## The block (R73, R74) -/

theorem addBlocks_getElem (x y : Block) {n : Nat} (hn : n < 16) : (addBlocks x y)[n] = x[n] + y[n] := by
  simp [addBlocks]

theorem columnRound_zero : columnRound (Vector.replicate 16 0) = Vector.replicate 16 0 := by
  simp only [columnRound, Vector.getElem_replicate, quarterRound_zero]
  rfl

theorem rowRound_zero : rowRound (Vector.replicate 16 0) = Vector.replicate 16 0 := by
  simp only [rowRound, Vector.getElem_replicate, quarterRound_zero]
  rfl

theorem doubleRound_zero : doubleRound (Vector.replicate 16 0) = Vector.replicate 16 0 := by
  rw [doubleRound, columnRound_zero, rowRound_zero]

theorem doubleRounds_zero (n : Nat) : doubleRounds n (Vector.replicate 16 0) = Vector.replicate 16 0 := by
  induction n with
  | zero => rfl
  | succ n ih => rw [doubleRounds, doubleRound_zero, ih]

theorem salsa8Block_zero : salsa8Block (Vector.replicate 16 0) = Vector.replicate 16 0 := by
  rw [salsa8Block, doubleRounds_zero]
  ext n hn : 1
  rw [addBlocks_getElem _ _ hn, Vector.getElem_replicate]
  exact BitVec.add_zero 0

/-- Settles O20: the rounds and the feed-forward by definition, the zero block round by round, the example by evaluation. -/
theorem blockIsFourDoubleRoundsAndFeedForward : Obligations.BlockIsFourDoubleRoundsAndFeedForward :=
  ⟨fun x i => addBlocks_getElem (doubleRounds 4 x) x i.isLt, salsa8Block_zero, by decide +kernel, by decide +kernel⟩

/-! ## The refill and `STEP` (R75, R77, R78) -/

/-- Settles O21: a refill's core words are those of the counter increment. -/
theorem refillAddsOneToTheCounter : Obligations.RefillAddsOneToTheCounter := fun s =>
  ⟨counterOf_incrementCounter s.core, incrementCounter_low s.core, incrementCounter_high s.core,
    fun i => incrementCounter_other i.isLt⟩

theorem exec_step_of_ready {s : State} (hk : s.keyValid = true) (hi : s.ivValid = true) :
    exec .step s = .next (respond .step [] (refill s)) := by
  rw [exec, execStep, requireReady_of_ready hk hi]

/-- Settles O22: a ready state is refilled, and the empty response joins the outbox. -/
theorem stepReplacesTheBlock : Obligations.StepReplacesTheBlock := fun _ hk hi => exec_step_of_ready hk hi

end Sys2Proof.Machine
end

section
/-! SUPPORT. What steers the hardware is public (R76): the public part of an answer is computed, command by command, from the
command's and the state's public parts and the number of responses, and from nothing else. -/

namespace Sys2Proof.Machine

/-! ## The cursor after byte steps and after a draw (R80, R85) -/

/-- The cursor after `n` byte steps; none once it is beyond the end of the cache, where no byte step succeeds. -/
def cursorAfterBytes : Nat → BitVec 7 → Option (BitVec 7)
  | 0, cur => some cur
  | n + 1, cur => if cur ≤ 64 then cursorAfterBytes n (if cur = 64 then 1 else cur + 1) else none

theorem xorByte_cur (b : Byte) (s : State) : (xorByte b s).map (·.2.cur) = cursorAfterBytes 1 s.cur := by
  have hle : s.cur ≤ 64 ↔ s.cur.toNat ≤ 64 := cursorInRange_iff s
  by_cases hlt : s.cur.toNat < 64
  · have h64 : s.cur ≠ 64 := fun e => by simp [e] at hlt
    rw [xorByte_unread hlt, cursorAfterBytes, if_pos (hle.mpr (by omega)), if_neg h64]
    rfl
  · by_cases h64 : s.cur = 64
    · rw [xorByte_empty h64, h64]
      rfl
    · have hne : s.cur.toNat ≠ 64 := fun e => h64 (BitVec.eq_of_toNat_eq e)
      rw [xorByte_outside (by omega), cursorAfterBytes, if_neg (mt hle.mp (by omega))]
      rfl

theorem cursorAfterBytes_succ (n : Nat) (cur : BitVec 7) :
    cursorAfterBytes (n + 1) cur = (cursorAfterBytes 1 cur).bind (cursorAfterBytes n) := by
  simp only [cursorAfterBytes]
  split <;> rfl

theorem xorBytes_cur (bs : List Byte) (s : State) :
    (xorBytes bs s).map (·.2.cur) = cursorAfterBytes bs.length s.cur := by
  induction bs generalizing s with
  | nil => rfl
  | cons b bs ih =>
    rw [List.length_cons, cursorAfterBytes_succ, ← xorByte_cur b s]
    cases hb : xorByte b s with
    | none => simp [xorBytes, hb]
    | some first =>
      obtain ⟨o, t⟩ := first
      rw [Option.map_some, Option.bind_some, ← ih t]
      cases hbs : xorBytes bs t <;> simp [xorBytes, hb, hbs]

/-- The message of a well-formed `XORBUF` has `len` bytes (R45, R49 (d)). -/
theorem length_messageBytes {len : BitVec 24} {pay : List Word} (hwf : (Instr.xorbuf len pay).wf = true) :
    (messageBytes len pay).length = len.toNat := by
  have hlen : pay.length = ceil4 len.toNat := by simpa [Instr.wf] using hwf
  rw [messageBytes, List.length_take, length_flatMap_wordBytes, hlen, ceil4]
  omega

/-- The cursor after a draw: past the two words drawn, of this block or of the next. -/
def cursorAfterDraw (cur : BitVec 7) : BitVec 7 :=
  if (cur.toNat + 3) / 4 + 1 < 16 then BitVec.ofNat 7 (4 * ((cur.toNat + 3) / 4 + 2)) else 8

theorem cursorAfterDraw_of_unread {s : State} (unread : firstUnreadWord s + 1 < 16) :
    cursorAfterDraw s.cur = (drawAt (firstUnreadWord s) unread s).cur := if_pos unread

theorem cursorAfterDraw_of_used {s : State} (used : ¬firstUnreadWord s + 1 < 16) :
    cursorAfterDraw s.cur = (drawAt 0 (by decide) (refill s)).cur := if_neg used

/-! ## The public part of an answer -/

/-- What of an answer is public (`publicResult`): a next state's public part, the number of its responses, and the newest
one's status word and length. -/
abbrev PublicAnswer := Option ((BitVec 7 × Bool × Bool) × Nat × Option (Option Word × Nat))

/-- One more response, of that status word and length, in a state of that public part. -/
def publicResponse (status : Word) (length : Nat) (after : BitVec 7 × Bool × Bool) (responses : Nat) : PublicAnswer :=
  some (after, responses + 1, some (some status, length))

/-- Status `OK` and so many data words (R47). -/
def publicOk (o : Op) (data : Nat) (after : BitVec 7 × Bool × Bool) (responses : Nat) : PublicAnswer :=
  publicResponse (responseWord 0x00 o.code) (data + 1) after responses

/-- The one-word error response; the public part of the state stays (R106). -/
def publicError (e : ErrorCode) (o : Op) (before : BitVec 7 × Bool × Bool) (responses : Nat) : PublicAnswer :=
  publicResponse (responseWord e.code o.code) 1 before responses

/-- The guard on `ready` (R103), of which the two flags decide. -/
def publicGuard (o : Op) (before : BitVec 7 × Bool × Bool) (responses : Nat) (body : PublicAnswer) : PublicAnswer :=
  if before.2.1 && before.2.2 then body else publicError .uninit o before responses

/-- The public part of the answer to a command, from public quantities alone: the opcode, `len` and the cursor word of the
command (`publicCommand`), cursor and flags of the state (`publicState`), and the number of responses. -/
def publicAnswer : Op × BitVec 24 × Word → BitVec 7 × Bool × Bool → Nat → PublicAnswer
  | (o, len, cursorWord), (cur, keyValid, ivValid), responses =>
    let before := (cur, keyValid, ivValid)
    match o with
    | .setkey => publicOk o 0 (cur, true, ivValid) responses
    | .setiv => publicOk o 0 (64, keyValid, true) responses
    | .step => publicGuard o before responses (publicOk o 0 (0, keyValid, ivValid) responses)
    | .next => publicGuard o before responses (publicOk o 2 (cursorAfterDraw cur, keyValid, ivValid) responses)
    | .xorb => publicGuard o before responses
        ((cursorAfterBytes 1 cur).bind fun c => publicOk o 1 (c, keyValid, ivValid) responses)
    | .xorbuf => publicGuard o before responses
        ((cursorAfterBytes len.toNat cur).bind fun c => publicOk o (ceil4 len.toNat) (c, keyValid, ivValid) responses)
    | .getstate => publicGuard o before responses (publicOk o 33 before responses)
    | .setstate =>
      if 64 < cursorWord then publicError .badState o before responses
      else publicOk o 0 (cursorWord.extractLsb' 0 7, true, true) responses
    | .status => publicOk o 1 before responses

/-! ## The answers of the model have that public part -/

theorem publicResult_send (status : Word) (data : List Word) (s : State) :
    publicResult (.next (send (status :: data) s)) =
      publicResponse status (data.length + 1) (publicState s) s.outbox.length := by
  simp [publicResult, publicResponse, publicState]

theorem publicResult_respond (o : Op) (data : List Word) (s : State) :
    publicResult (.next (respond o data s)) = publicOk o data.length (publicState s) s.outbox.length :=
  publicResult_send _ data s

theorem publicResult_raiseError (e : ErrorCode) (o : Op) (s : State) :
    publicResult (.next (raiseError e o.code s)) = publicError e o (publicState s) s.outbox.length :=
  publicResult_send _ [] s

theorem publicResult_requireReady (o : Op) (s : State) (body : Result) :
    publicResult (requireReady o s body) = publicGuard o (publicState s) s.outbox.length (publicResult body) := by
  rw [requireReady, apply_ite publicResult, publicResult_raiseError]
  rfl

theorem publicResult_execNext (s : State) :
    publicResult (execNext s) = publicGuard .next (publicState s) s.outbox.length
      (publicOk .next 2 (cursorAfterDraw s.cur, s.keyValid, s.ivValid) s.outbox.length) := by
  rw [execNext, publicResult_requireReady, apply_dite publicResult]
  congr 1
  split
  · next unread =>
    rw [cursorAfterDraw_of_unread unread]
    exact publicResult_respond ..
  · next used =>
    rw [cursorAfterDraw_of_used used]
    exact publicResult_respond ..

theorem publicResult_execXorb (byte : Byte) (s : State) :
    publicResult (execXorb byte s) = publicGuard .xorb (publicState s) s.outbox.length
      ((cursorAfterBytes 1 s.cur).bind fun c => publicOk .xorb 1 (c, s.keyValid, s.ivValid) s.outbox.length) := by
  rw [execXorb, publicResult_requireReady, ← xorByte_cur byte s]
  congr 1
  split
  · next run =>
    obtain ⟨⟨-, hk, hi, -, hout⟩, -⟩ := xorByte_some run
    rw [publicResult_respond, publicState, hk, hi, hout, run]
    rfl
  · next run =>
    rw [run]
    rfl

theorem publicResult_execXorbuf {len : BitVec 24} {pay : List Word} (s : State)
    (hwf : (Instr.xorbuf len pay).wf = true) :
    publicResult (execXorbuf len pay s) = publicGuard .xorbuf (publicState s) s.outbox.length
      ((cursorAfterBytes len.toNat s.cur).bind fun c =>
        publicOk .xorbuf (ceil4 len.toNat) (c, s.keyValid, s.ivValid) s.outbox.length) := by
  rw [execXorbuf, publicResult_requireReady, ← length_messageBytes hwf, ← xorBytes_cur]
  congr 1
  split
  · next run =>
    obtain ⟨hlen, hk, hi, -, hout, -⟩ := xorBytes_some run
    rw [publicResult_respond, publicState, length_packBytes, hlen, hk, hi, hout, run]
    rfl
  · next run =>
    rw [run]
    rfl

theorem publicResult_execSetstate (blob : Vector Word 33) (s : State) :
    publicResult (execSetstate blob s) =
      if 64 < blobCursor blob then publicError .badState .setstate (publicState s) s.outbox.length
      else publicOk .setstate 0 ((blobCursor blob).extractLsb' 0 7, true, true) s.outbox.length := by
  rw [execSetstate, apply_ite publicResult, publicResult_raiseError, publicResult_respond, loadBlob_outbox]
  rfl

theorem length_blobWords (s : State) : (blobWords s).length = 33 := by
  simp [blobWords]

/-- The public part of the answer to a well-formed command is a function of the public parts of command and state. -/
theorem publicResult_exec {i : Instr} (s : State) (hwf : i.wf = true) :
    publicResult (exec i s) = publicAnswer (publicCommand i) (publicState s) s.outbox.length := by
  cases i with
  | setkey k => exact publicResult_respond .setkey [] (loadKey k s)
  | setiv iv => exact publicResult_respond .setiv [] (loadIv iv s)
  | step =>
    rw [exec, execStep, publicResult_requireReady, publicResult_respond]
    rfl
  | next => exact publicResult_execNext s
  | xorb byte => exact publicResult_execXorb byte s
  | xorbuf len pay => exact publicResult_execXorbuf s hwf
  | getstate =>
    rw [exec, execGetstate, publicResult_requireReady, publicResult_respond, length_blobWords]
    rfl
  | setstate blob => exact publicResult_execSetstate blob s
  | status => exact publicResult_respond .status _ s

/-- Settles O44: equal public parts give the same public answer. -/
theorem controlDependsOnPublicValuesOnly : Obligations.ControlDependsOnPublicValuesOnly := by
  intro i j s t hi hj hcommand hstate hresponses
  rw [publicResult_exec s hi, publicResult_exec t hj, hcommand, hstate, hresponses]

end Sys2Proof.Machine
end

section
/-! SUPPORT. `NEXT` (R80, R81): where the draw starts, that it is an eight-byte read of the cache view (R31), and which block
and words draw number `n` behind a key load and an IV load is. -/

namespace Sys2Proof.Machine

/-! ## The two branches of `NEXT` (R80) -/

theorem exec_next_of_unread {s : State} (hk : s.keyValid = true) (hi : s.ivValid = true)
    (unread : firstUnreadWord s + 1 < 16) : exec .next s = .next (drawAt (firstUnreadWord s) unread s) := by
  rw [exec, execNext, requireReady_of_ready hk hi, dif_pos unread]

theorem exec_next_of_used {s : State} (hk : s.keyValid = true) (hi : s.ivValid = true)
    (used : ¬firstUnreadWord s + 1 < 16) : exec .next s = .next (drawAt 0 (by decide) (refill s)) := by
  rw [exec, execNext, requireReady_of_ready hk hi, dif_neg used]

/-- Settles O24: the two branches of `NEXT`, with the draw and the refill written out. -/
theorem nextDrawsTwoWords : Obligations.NextDrawsTwoWords := by
  intro s hk hi
  refine ⟨fun w hw unread => ?_, fun used => exec_next_of_used hk hi (Nat.not_lt.mpr used)⟩
  subst hw
  exact exec_next_of_unread hk hi unread

/-- In a ready state `NEXT` draws two consecutive words, of the state's cache or of the refilled one. -/
theorem exists_draw {s : State} (hk : s.keyValid = true) (hi : s.ivValid = true) :
    ∃ (v : State) (w : Nat) (hw : w + 1 < 16), v.outbox = s.outbox ∧ exec .next s = .next (drawAt w hw v) := by
  by_cases unread : firstUnreadWord s + 1 < 16
  · exact ⟨s, _, unread, rfl, exec_next_of_unread hk hi unread⟩
  · exact ⟨refill s, 0, by decide, rfl, exec_next_of_used hk hi unread⟩

/-! ## Two words are an eight-byte read (R31) -/

/-- A word is its four bytes, the lowest first. -/
theorem word_toNat_eq_bytes (w : Word) :
    w.toNat = (byteOfWord w 0).toNat +
      256 * ((byteOfWord w 1).toNat + 256 * ((byteOfWord w 2).toNat + 256 * (byteOfWord w 3).toNat)) := by
  have hw := w.isLt
  simp only [byteOfWord, BitVec.extractLsb'_toNat, Nat.shiftRight_eq_div_pow]
  omega

theorem cacheByte_of_word {x : Block} {w k : Nat} (hw : w < 16) (hk : k < 4) :
    cacheByte x (4 * w + k) = some (byteOfWord x[w] k) := by
  have hdiv : (4 * w + k) / 4 = w := by omega
  have hmod : (4 * w + k) % 4 = k := by omega
  rw [cacheByte_of_lt (by omega)]
  simp only [hdiv, hmod]

/-- A read that starts at word `w` is that word below the read of what follows it. -/
theorem littleEndian_of_word {x : Block} {w n r : Nat} (hw : w < 16) (h : littleEndian x (4 * (w + 1)) n = some r) :
    littleEndian x (4 * w) (n + 4) = some (x[w].toNat + 2 ^ 32 * r) := by
  have h0 : cacheByte x (4 * w) = some (byteOfWord x[w] 0) := cacheByte_of_word hw (k := 0) (by decide)
  have hbyte {k : Nat} (hk : k < 4) := cacheByte_of_word (x := x) hw hk
  have hrest : littleEndian x (4 * w + 3 + 1) n = some r := h
  simp only [littleEndian, h0, hbyte (k := 1) (by decide), hbyte (k := 2) (by decide), hbyte (k := 3) (by decide), hrest,
    Option.some.injEq]
  rw [word_toNat_eq_bytes x[w]]
  omega

/-- The eight bytes at word `w` are the words `w` and `w + 1`, the first one low. -/
theorem memRead_two_words {x : Block} {w : Nat} (hw : w + 1 < 16) :
    memRead x (4 * w) 8 = some (x[w + 1].toNat * 2 ^ 32 + x[w].toNat) := by
  have hhigh : littleEndian x (4 * (w + 1)) 4 = some x[w + 1].toNat := littleEndian_of_word (n := 0) (r := 0) hw rfl
  rw [memRead, if_pos (by omega), littleEndian_of_word (by omega) hhigh, Nat.mul_comm, Nat.add_comm]

/-- Settles O25: the cursor a draw leaves is eight bytes behind the first of its two words. -/
theorem drawIsALittleEndianRead : Obligations.DrawIsALittleEndianRead := by
  intro s hk hi
  obtain ⟨v, w, hw, hout, hnext⟩ := exists_draw hk hi
  have hcur : (drawAt w hw v).cur.toNat = 4 * w + 8 := by
    rw [drawAt_cur, BitVec.toNat_ofNat]
    omega
  refine ⟨drawAt w hw v, v.cache[w], v.cache[w + 1], hnext, hout ▸ drawAt_outbox w hw v, ?_, ?_, ?_⟩
  · omega
  · omega
  · rw [hcur, Nat.add_sub_cancel]
    exact memRead_two_words hw

/-! ## The core words at a counter value (R65, R75) -/

/-- The Salsa layout of a key and an IV, with counter value `c` in the two counter words (R69, R14); that both loads leave it
with `c = 0` is `core_of_loadKey_loadIv`. -/
def layoutAt (k : Vector Word 8) (iv : Vector Word 2) (c : Nat) : Block :=
  #v[sigma[0], k[0], k[1], k[2], k[3], sigma[1], iv[0], iv[1],
    BitVec.ofNat 32 c, BitVec.ofNat 32 (c / 2 ^ 32), sigma[2], k[4], k[5], k[6], k[7], sigma[3]]

/-- The carry into the high counter word (R75): it goes on just when the low word comes to zero. -/
theorem counter_carry (c : Nat) :
    (if BitVec.ofNat 32 (c + 1) = 0 then BitVec.ofNat 32 (c / 2 ^ 32) + 1 else BitVec.ofNat 32 (c / 2 ^ 32)) =
      BitVec.ofNat 32 ((c + 1) / 2 ^ 32) := by
  have hzero : BitVec.ofNat 32 (c + 1) = 0 ↔ (c + 1) % 2 ^ 32 = 0 := by
    rw [← BitVec.toNat_inj, BitVec.toNat_ofNat]
    rfl
  simp only [hzero]
  split
  · next carry =>
    have hdiv : (c + 1) / 2 ^ 32 = c / 2 ^ 32 + 1 := by omega
    rw [hdiv, BitVec.ofNat_add]
    rfl
  · next noCarry =>
    have hdiv : (c + 1) / 2 ^ 32 = c / 2 ^ 32 := by omega
    rw [hdiv]

theorem incrementCounter_layoutAt (k : Vector Word 8) (iv : Vector Word 2) (c : Nat) :
    incrementCounter (layoutAt k iv c) = layoutAt k iv (c + 1) := by
  have hlow : BitVec.ofNat 32 c + 1 = BitVec.ofNat 32 (c + 1) := (BitVec.ofNat_add c 1).symm
  rw [layoutAt, layoutAt, ← counter_carry, ← hlow]
  rfl

/-! ## The draws behind the loads (R81) -/

/-- The response to draw number `n`: words `2 * (n mod 8)` and the next one of the block of counter value `n div 8`. -/
def drawResponse (k : Vector Word 8) (iv : Vector Word 2) (n : Nat) : List Word :=
  let block := salsa8Block (layoutAt k iv (n / 8))
  [0x00000400, block.toList.getD (2 * (n % 8)) 0, block.toList.getD (2 * (n % 8) + 1) 0]

theorem getD_toList_of_lt (x : Block) {i : Nat} (h : i < 16) : x.toList.getD i 0 = x[i] := by
  rw [List.getD_eq_getElem _ _ (x.length_toList.symm ▸ h), Vector.getElem_toList]

/-- A state behind `n` draws after the loads: eight draws to a block, `ceil(n / 8)` blocks made, and while the last of them is
not used up, it is in the cache. -/
structure BehindDraws (k : Vector Word 8) (iv : Vector Word 2) (n : Nat) (s : State) : Prop where
  keyValid : s.keyValid = true
  ivValid : s.ivValid = true
  core : s.core = layoutAt k iv ((n + 7) / 8)
  cur : s.cur.toNat + 64 * ((n + 7) / 8) = 8 * n + 64
  cache : n % 8 ≠ 0 → s.cache = salsa8Block (layoutAt k iv (n / 8))

namespace BehindDraws

variable {k : Vector Word 8} {iv : Vector Word 2} {n : Nat} {s : State}

theorem loads (k : Vector Word 8) (iv : Vector Word 2) (s : State) :
    BehindDraws k iv 0 (Machine.respond .setiv [] (loadIv iv (Machine.respond .setkey [] (loadKey k s)))) where
  keyValid := rfl
  ivValid := rfl
  core := core_of_loadKey_loadIv k iv s
  cur := rfl
  cache h := absurd rfl h

/-- The next draw is of words `2 * (n mod 8)` and the next one, out of a state that holds the block they are of: the state
itself, or at the end of a block the state refilled. -/
theorem exec_next (h : BehindDraws k iv n s) :
    ∃ v : State, exec .next s = .next (drawAt (2 * (n % 8)) (by omega) v) ∧
      v.keyValid = true ∧ v.ivValid = true ∧ v.outbox = s.outbox ∧
      v.core = layoutAt k iv (n / 8 + 1) ∧ v.cache = salsa8Block (layoutAt k iv (n / 8)) := by
  obtain ⟨hk, hi, hcore, hcur, hcache⟩ := h
  by_cases hblock : n % 8 = 0
  · have hmade : (n + 7) / 8 = n / 8 := by omega
    rw [hmade] at hcore hcur
    have hempty : s.cur = 64 := BitVec.eq_of_toNat_eq (by rw [show (64 : BitVec 7).toNat = 64 from rfl]; omega)
    refine ⟨refill s, ?_, hk, hi, rfl, ?_, ?_⟩
    · simp only [hblock]
      exact exec_next_of_empty hk hi hempty
    · rw [refill_core, hcore, incrementCounter_layoutAt]
    · rw [refill_cache, hcore]
  · have hmade : (n + 7) / 8 = n / 8 + 1 := by omega
    rw [hmade] at hcore hcur
    exact ⟨s, exec_next_of_word hk hi _ (by omega), hk, hi, rfl, hcore, hcache hblock⟩

/-- One more `NEXT` is draw number `n`. -/
theorem draw (h : BehindDraws k iv n s) :
    ∃ t, exec .next s = .next t ∧ BehindDraws k iv (n + 1) t ∧ t.outbox = s.outbox ++ [drawResponse k iv n] := by
  obtain ⟨v, hnext, hk, hi, hout, hcore, hcache⟩ := h.exec_next
  have hmade : (n + 1 + 7) / 8 = n / 8 + 1 := by omega
  refine ⟨_, hnext, ⟨hk, hi, hmade ▸ hcore, ?_, fun hblock => ?_⟩, ?_⟩
  · rw [drawAt_cur, BitVec.toNat_ofNat]
    omega
  · have hsame : (n + 1) / 8 = n / 8 := by omega
    rw [drawAt_cache, hcache, hsame]
  · rw [drawAt_outbox, hout, drawResponse, getD_toList_of_lt _ (by omega), getD_toList_of_lt _ (by omega)]
    simp only [hcache]
    rfl

/-- With only `NEXT` commands, the last of `m + 1` of them is draw number `n + m`. -/
theorem draws (m : Nat) (h : BehindDraws k iv n s) :
    ∃ t, execAll (List.replicate (m + 1) .next) s = .next t ∧ t.outbox.length = s.outbox.length + m + 1 ∧
      t.outbox.getLast? = some (drawResponse k iv (n + m)) := by
  induction m generalizing n s with
  | zero =>
    obtain ⟨t, hnext, -, hout⟩ := h.draw
    refine ⟨t, ?_, ?_, ?_⟩
    · simp only [List.replicate, execAll, hnext]
    · rw [hout, List.length_append, List.length_singleton, Nat.add_zero]
    · rw [hout, List.getLast?_concat, Nat.add_zero]
  | succ m ih =>
    obtain ⟨u, hnext, hbehind, hout⟩ := h.draw
    obtain ⟨t, hrun, hlength, hlast⟩ := ih hbehind
    refine ⟨t, ?_, ?_, ?_⟩
    · rw [List.replicate_succ, execAll, hnext]
      exact hrun
    · rw [hlength, hout, List.length_append, List.length_singleton]
      omega
    · rw [hlast, Nat.add_right_comm, Nat.add_assoc]

end BehindDraws

/-- Settles O27: the loads leave no draw made, and each `NEXT` behind them is the next draw. -/
theorem drawSequenceFollowsTheCounter : Obligations.DrawSequenceFollowsTheCounter := by
  intro s k iv n
  obtain ⟨t, hrun, hlength, hlast⟩ := (BehindDraws.loads k iv s).draws n
  refine ⟨t, hrun, ?_, ?_⟩
  · rw [hlength]
    simp only [respond_outbox, loadIv_outbox, loadKey_outbox, List.length_append, List.length_singleton]
    omega
  · rw [hlast, Nat.zero_add]
    rfl

end Sys2Proof.Machine
end

section
/-! SUPPORT. The XOR unit (R85 to R89). The keystream from a state on is read byte by byte: a byte consumed moves it by one, and
a refill at the end of the cache does not move it. So the byte steps of a message XOR it with that keystream
(`xorBytes_eq_xorKeystream`). -/

namespace Sys2Proof.Machine

/-! ## What a consumed byte and a refill leave of the keystream (R75, R77, R85) -/

theorem coreAt_incrementCounter (x : Block) (n : Nat) : coreAt (incrementCounter x) n = coreAt x (n + 1) :=
  coreAt_of_counter (counterOf_incrementCounter x) (fun _ h16 h8 h9 => incrementCounter_other h16 h8 h9) n

theorem blockAt_incrementCounter (x : Block) (n : Nat) : blockAt (incrementCounter x) n = blockAt x (n + 1) := by
  rw [blockAt, blockAt, coreAt_incrementCounter]

/-- The first block to come is that of the core words as they are (R77). -/
theorem blockAt_zero (x : Block) : blockAt x 0 = salsa8Block x := by
  rw [blockAt, coreAt_zero]

theorem toNat_cur_succ {s : State} (unread : s.cur.toNat < 64) : (s.cur + 1).toNat = s.cur.toNat + 1 := by
  simp only [BitVec.toNat_add, BitVec.ofNat_eq_ofNat, BitVec.toNat_ofNat]
  omega

theorem toNat_cur_of_empty {s : State} (empty : s.cur = 64) : s.cur.toNat = 64 := congrArg BitVec.toNat empty

theorem toNat_cur_refill (s : State) : (refill s).cur.toNat = 0 := rfl

theorem keystreamByte_cur_succ {s : State} (unread : s.cur.toNat < 64) (j : Nat) :
    keystreamByte { s with cur := s.cur + 1 } j = keystreamByte s (j + 1) := by
  have hpos : s.cur.toNat + 1 + j = s.cur.toNat + (j + 1) := by omega
  simp only [keystreamByte, toNat_cur_succ unread, hpos]

theorem afterBytes_cur_succ {s : State} (unread : s.cur.toNat < 64) (n : Nat) :
    afterBytes { s with cur := s.cur + 1 } n = afterBytes s (n + 1) := by
  have hrefills : refillsFor { s with cur := s.cur + 1 } n = refillsFor s (n + 1) := by
    simp only [refillsFor, toNat_cur_succ unread]
    omega
  have hpos : s.cur.toNat + 1 + n = s.cur.toNat + (n + 1) := by omega
  simp only [afterBytes, hrefills, toNat_cur_succ unread, hpos]

theorem keystreamByte_refill {s : State} (empty : s.cur = 64) (j : Nat) :
    keystreamByte (refill s) j = keystreamByte s j := by
  simp only [keystreamByte, toNat_cur_refill, toNat_cur_of_empty empty, refill_cache, refill_core, blockAt_incrementCounter]
  rw [if_neg (show ¬64 + j < 64 by omega)]
  by_cases hj : j < 64
  · have hdiv : (64 + j - 64) / 64 = 0 := by omega
    have hmod : (64 + j - 64) % 64 = 0 + j := by omega
    rw [if_pos (by omega), hdiv, hmod, blockAt_zero]
  · have hdiv : (64 + j - 64) / 64 = (0 + j - 64) / 64 + 1 := by omega
    have hmod : (64 + j - 64) % 64 = (0 + j - 64) % 64 := by omega
    rw [if_neg (by omega), hdiv, hmod]

/-- With a byte still to take, the refill at the end of the cache is the first of the refills that the bytes take (C9). -/
theorem refillsFor_of_empty {s : State} (empty : s.cur = 64) (n : Nat) :
    refillsFor s (n + 1) = refillsFor (refill s) (n + 1) + 1 := by
  simp only [refillsFor, toNat_cur_of_empty empty, toNat_cur_refill]
  omega

theorem afterBytes_refill {s : State} (empty : s.cur = 64) (n : Nat) :
    afterBytes (refill s) (n + 1) = afterBytes s (n + 1) := by
  simp only [afterBytes, refillsFor_of_empty empty, toNat_cur_of_empty empty, toNat_cur_refill, refill_core, refill_cache,
    coreAt_incrementCounter, blockAt_incrementCounter]
  generalize refillsFor (refill s) (n + 1) = r
  have hcur : 0 + (n + 1) - 64 * r = 64 + (n + 1) - 64 * (r + 1) := by omega
  rw [hcur]
  cases r with
  | zero => simp [blockAt_zero, refill]
  | succ r => simp [refill]

/-! ## The byte steps of a message in closed form (R87) -/

/-- Each byte of a message XOR the byte of the keystream at its place (R87, corner case (e)). -/
def xorKeystream (s : State) (msg : List Byte) : List Byte := msg.mapIdx fun j b => b ^^^ keystreamByte s j

@[simp] theorem length_xorKeystream (s : State) (msg : List Byte) : (xorKeystream s msg).length = msg.length :=
  List.length_mapIdx

theorem xorKeystream_cons_of_unread {s : State} (unread : s.cur.toNat < 64) (b : Byte) (bs : List Byte) :
    xorKeystream s (b :: bs) = (b ^^^ keystreamByte s 0) :: xorKeystream { s with cur := s.cur + 1 } bs := by
  simp only [xorKeystream, List.mapIdx_cons, keystreamByte_cur_succ unread]

theorem xorKeystream_refill {s : State} (empty : s.cur = 64) (msg : List Byte) :
    xorKeystream (refill s) msg = xorKeystream s msg := by
  simp only [xorKeystream, keystreamByte_refill empty]

theorem getD_xorKeystream (s : State) (msg : List Byte) {j : Nat} (h : j < msg.length) :
    (xorKeystream s msg).getD j 0 = msg.getD j 0 ^^^ keystreamByte s j := by
  simp [xorKeystream, h]

/-- XOR is self-inverse (R88). -/
theorem xorKeystream_xorKeystream (s : State) (msg : List Byte) : xorKeystream s (xorKeystream s msg) = msg := by
  apply List.ext_getElem
  · simp
  · intro j _ _
    simp [xorKeystream]

theorem xorByte_of_unread {s : State} (unread : s.cur.toNat < 64) (b : Byte) :
    xorByte b s = some (b ^^^ keystreamByte s 0, { s with cur := s.cur + 1 }) := by
  rw [xorByte_unread unread, keystreamByte, Nat.add_zero, if_pos unread, blockByte_of_lt unread]

/-- The byte steps of a message XOR it with the keystream from the state's position on, and move the state on by as many bytes:
byte by byte inside a block, and at the end of the block as from the refilled state. -/
theorem xorBytes_eq_xorKeystream (msg : List Byte) {s : State} (hs : CursorInRange s) :
    xorBytes msg s = some (xorKeystream s msg, afterBytes s msg.length) := by
  induction msg generalizing s with
  | nil => rw [xorBytes_nil, List.length_nil, afterBytes_zero]; rfl
  | cons b bs ih =>
    have inside {u : State} (unread : u.cur.toNat < 64) :
        xorBytes (b :: bs) u = some (xorKeystream u (b :: bs), afterBytes u (b :: bs).length) := by
      have hnext : CursorInRange { u with cur := u.cur + 1 } :=
        (cursorInRange_iff _).mpr ((toNat_cur_succ unread).trans_le unread)
      rw [xorKeystream_cons_of_unread unread, List.length_cons, ← afterBytes_cur_succ unread]
      exact xorBytes_cons (xorByte_of_unread unread b) (ih hnext)
    obtain unread | atEnd := Nat.lt_or_eq_of_le ((cursorInRange_iff s).mp hs)
    · exact inside unread
    · have empty : s.cur = 64 := BitVec.eq_of_toNat_eq atEnd
      rw [xorBytes_cons_refill b bs empty, inside (by rw [toNat_cur_refill]; decide),
        xorKeystream_refill empty, List.length_cons, afterBytes_refill empty]

/-! ## Bytes of payload and response words (R49 (d), R47) -/

theorem getD_messageBytes {len : BitVec 24} {pay : List Word} {j : Nat} (hlen : pay.length = ceil4 len.toNat)
    (hj : j < len.toNat) : (messageBytes len pay).getD j 0 = byteOfWord (pay.getD (j / 4) 0) (j % 4) := by
  have hpay : j < 4 * pay.length := by
    rw [hlen, ceil4]
    omega
  rw [← getD_flatMap_wordBytes pay j hpay, messageBytes, List.getD_eq_getElem?_getD, List.getElem?_take_of_lt hj,
    ← List.getD_eq_getElem?_getD]

/-- A byte of packed words is the byte packed at its place, and zero behind the last of them. -/
theorem byteOfWord_packBytes (bs : List Byte) {j : Nat} (hj : j < 4 * (packBytes bs).length) :
    byteOfWord ((packBytes bs).getD (j / 4) 0) (j % 4) = bs.getD j 0 := by
  rw [← getD_flatMap_wordBytes _ j hj, flatMap_packBytes]
  obtain inside | pad := Nat.lt_or_ge j bs.length
  · exact List.getD_append _ _ _ _ inside
  · rw [List.getD_append_right _ _ _ _ pad, List.getD_eq_default _ _ pad,
      List.getD_eq_getElem?_getD, List.getElem?_getD_replicate_default_eq]

theorem packBytes_singleton (b : Byte) : packBytes [b] = [b.setWidth 32] := by
  simp [packBytes, packWord]

theorem dataBytes_packBytes (bs : List Byte) : dataBytes bs.length (packBytes bs) = bs := take_packBytes bs

/-! ## `XORB` and `XORBUF` (R86, R87) -/

/-- Settles O28: the two cases of the byte step, the refill written out in the second. -/
theorem xorbXorsTheNextByte : Obligations.XorbXorsTheNextByte := fun _ _ hk hi =>
  ⟨fun unread => exec_xorb_of_ready hk hi (xorByte_unread unread),
    fun empty => exec_xorb_of_ready hk hi (xorByte_empty empty)⟩

theorem exec_xorbuf_of_ready {len : BitVec 24} {pay : List Word} {out : List Byte} {s t : State} (hk : s.keyValid = true)
    (hi : s.ivValid = true) (run : xorBytes (messageBytes len pay) s = some (out, t)) :
    exec (.xorbuf len pay) s = .next (respond .xorbuf (packBytes out) t) := by
  simp only [exec, execXorbuf, requireReady_of_ready hk hi, run]

/-- Settles O30: the message has no bytes, so there is no byte step. -/
theorem xorbufOfNoBytesConsumesNothing : Obligations.XorbufOfNoBytesConsumesNothing := fun s hk hi =>
  exec_xorbuf_of_ready (len := 0) (pay := []) hk hi (xorBytes_nil s)

/-- Settles O29: the data words are the packed bytes of the message XOR the keystream. -/
theorem xorbufXorsTheKeystream : Obligations.XorbufXorsTheKeystream := by
  intro s len pay hk hi hs hlen
  have hmsg : (messageBytes len pay).length = len.toNat := length_messageBytes (by simpa [Instr.wf] using hlen)
  have run := xorBytes_eq_xorKeystream (messageBytes len pay) hs
  rw [hmsg] at run
  have hdata : (packBytes (xorKeystream s (messageBytes len pay))).length = ceil4 len.toNat := by
    rw [length_packBytes, length_xorKeystream, hmsg]
  refine ⟨_, exec_xorbuf_of_ready hk hi run, hdata, fun j hj => ?_, fun j hpad hj => ?_⟩
  · rw [byteOfWord_packBytes _ (by rw [hdata, ceil4]; omega), getD_xorKeystream _ _ (by omega), getD_messageBytes hlen hj]
  · rw [byteOfWord_packBytes _ hj, List.getD_eq_default _ _ (by rw [length_xorKeystream, hmsg]; exact hpad)]

/-! ## Cutting a buffer, and the round trip (R88, R89) -/

/-- `XORBUF` of two buffers one after the other is `XORBUF` of both in one, but for the packing of the responses: both are the
byte steps of the one message (R89). -/
theorem exec_bufferCommand_append {a b : List Byte} {s : State} (hk : s.keyValid = true) (hi : s.ivValid = true)
    (hs : CursorInRange s) (hlen : (a ++ b).length ≤ Config.maxLen) :
    ∃ (t u : State) (x y z : List Word),
      exec (bufferCommand (a ++ b)) s = .next t ∧ t.outbox = s.outbox ++ [0x00000600 :: x] ∧
      execAll [bufferCommand a, bufferCommand b] s = .next u ∧
      u.outbox = s.outbox ++ [0x00000600 :: y, 0x00000600 :: z] ∧
      { t with outbox := [] } = { u with outbox := [] } ∧
      dataBytes (a ++ b).length x = dataBytes a.length y ++ dataBytes b.length z := by
  obtain ⟨out, w, run⟩ := xorBytes_isSome (a ++ b) ((cursorInRange_iff s).mp hs)
  obtain ⟨outA, outB, v, runA, runB, rfl⟩ := xorBytes_append_some run
  obtain ⟨hlenA, hvk, hvi, -, hvout, -⟩ := xorBytes_some runA
  obtain ⟨hlenB, -, -, -, hwout, -⟩ := xorBytes_some runB
  have hfits := List.length_append ▸ hlen
  have hab := exec_bufferCommand_of_ready hk hi hlen run
  have ha := exec_bufferCommand_of_ready hk hi (Nat.le_of_add_right_le hfits) runA
  have hb := exec_bufferCommand_of_ready (s := respond .xorbuf (packBytes outA) v) (hvk.trans hk) (hvi.trans hi)
    (Nat.le_of_add_left_le hfits) (xorBytes_send _ runB)
  have hboth : execAll [bufferCommand a, bufferCommand b] s =
      .next (respond .xorbuf (packBytes outB) (respond .xorbuf (packBytes outA) w)) := by
    simp only [execAll, ha, hb]
    rfl
  refine ⟨_, _, packBytes (outA ++ outB), packBytes outA, packBytes outB, hab, ?_, hboth, ?_, rfl, ?_⟩
  · rw [respond_outbox, hwout, hvout]; rfl
  · rw [respond_outbox, respond_outbox, hwout, hvout, List.append_assoc]; rfl
  · rw [List.length_append, ← hlenA, ← hlenB, ← List.length_append, dataBytes_packBytes, dataBytes_packBytes,
      dataBytes_packBytes]

/-- `XORBUF` of one byte is `XORB` of it: both are one byte step, and one packed byte is that byte zero-extended (R89). -/
theorem exec_bufferCommand_singleton {s : State} (byte : Byte) (hk : s.keyValid = true) (hi : s.ivValid = true)
    (hs : CursorInRange s) :
    ∃ (t u : State) (out : Word),
      exec (bufferCommand [byte]) s = .next t ∧ t.outbox = s.outbox ++ [[0x00000600, out]] ∧
      exec (.xorb byte) s = .next u ∧ u.outbox = s.outbox ++ [[0x00000500, out]] ∧
      { t with outbox := [] } = { u with outbox := [] } := by
  obtain ⟨o, t, run⟩ := xorByte_isSome (b := byte) ((cursorInRange_iff s).mp hs)
  obtain ⟨⟨-, -, -, -, hout⟩, -⟩ := xorByte_some run
  have hbuffer := exec_bufferCommand_of_ready hk hi (msg := [byte]) (Nat.le_of_ble_eq_true rfl)
    (xorBytes_cons run (xorBytes_nil t))
  rw [packBytes_singleton] at hbuffer
  exact ⟨_, _, o.setWidth 32, hbuffer, by rw [respond_outbox, hout]; rfl, exec_xorb_of_ready hk hi run,
    by rw [respond_outbox, hout]; rfl, rfl⟩

/-- Settles O31: the two halves of R89. -/
theorem cuttingABufferChangesNothing : Obligations.CuttingABufferChangesNothing := fun _ _ _ byte hk hi hs hlen =>
  ⟨exec_bufferCommand_append hk hi hs hlen, exec_bufferCommand_singleton byte hk hi hs⟩

/-- Settles O32: the keystream is the same both times, and XOR with it is self-inverse. -/
theorem decryptionUndoesEncryption : Obligations.DecryptionUndoesEncryption := by
  intro s message hk hi hs hlen
  have hlength := length_xorKeystream s message
  have runBack := xorBytes_eq_xorKeystream (xorKeystream s message) hs
  rw [xorKeystream_xorKeystream, hlength] at runBack
  have encrypt := exec_bufferCommand_of_ready hk hi hlen (xorBytes_eq_xorKeystream message hs)
  have decrypt := exec_bufferCommand_of_ready hk hi (hlength.trans_le hlen) runBack
  have hcipher : dataBytes message.length (packBytes (xorKeystream s message)) = xorKeystream s message := by
    rw [← hlength, dataBytes_packBytes]
  rw [← hcipher] at decrypt
  exact ⟨_, _, _, _, encrypt, rfl, decrypt, rfl, dataBytes_packBytes message, rfl⟩

end Sys2Proof.Machine
end

section
/-! SUPPORT. The saved state (R90 to R94): what `GETSTATE`, `SETSTATE` and `STATUS` answer, that loading a blob and reading one
undo each other, and the bits of the status word (R15). -/

namespace Sys2Proof.Machine

/-! ## The three commands (R91 to R93) -/

theorem exec_getstate_of_ready {s : State} (hk : s.keyValid = true) (hi : s.ivValid = true) :
    exec .getstate s = .next (respond .getstate (blobWords s) s) := by
  rw [exec, execGetstate, requireReady_of_ready hk hi]

theorem exec_setstate_of_le {blob : Vector Word 33} (s : State) (h : (blobCursor blob).toNat ≤ 64) :
    exec (.setstate blob) s = .next (respond .setstate [] (loadBlob blob s)) :=
  if_neg (BitVec.not_lt.mpr (BitVec.le_def.mpr h))

theorem exec_setstate_of_gt {blob : Vector Word 33} (s : State) (h : 64 < (blobCursor blob).toNat) :
    exec (.setstate blob) s = .next (raiseError .badState Op.setstate.code s) :=
  if_pos (show 64 < blobCursor blob from BitVec.lt_def.mpr h)

theorem exec_status (s : State) : exec .status s = .next (respond .status [statusView s] s) := rfl

/-- Settles O35: a ready state passes the guard, and the response with the blob joins the outbox. -/
theorem getstateReturnsTheBlob : Obligations.GetstateReturnsTheBlob := fun _ => exec_getstate_of_ready

/-! ## The words of a blob (R90) -/

theorem blobCore_getElem (b : Vector Word 33) {n : Nat} (hn : n < 16) : (blobCore b)[n] = b[n] := by
  simp [blobCore]

theorem blobCache_getElem (b : Vector Word 33) {n : Nat} (hn : n < 16) : (blobCache b)[n] = b[16 + n] := by
  simp [blobCache]

/-- The seven bits the cursor keeps of the cursor word are its number, when that is at most 64. -/
theorem toNat_cut_of_le {c : Word} (h : c.toNat ≤ 64) : (c.extractLsb' 0 7).toNat = c.toNat := by
  rw [BitVec.extractLsb'_toNat, Nat.shiftRight_zero]
  exact Nat.mod_eq_of_lt (Nat.lt_of_le_of_lt h (by decide))

/-- Settles O36: the two sides of the check on the cursor word; a blob that passes it is loaded word by word. -/
theorem setstateLoadsOrRefusesTheBlob : Obligations.SetstateLoadsOrRefusesTheBlob := by
  refine fun s blob => ⟨fun hle => ⟨_, exec_setstate_of_le s hle, ?_⟩, exec_setstate_of_gt s⟩
  exact ⟨fun i => ⟨blobCore_getElem blob i.isLt, blobCache_getElem blob i.isLt⟩, toNat_cut_of_le hle, rfl, rfl, rfl, rfl⟩

/-! ## Saving and restoring (R94) -/

/-- The blob `GETSTATE` reads, as the operand `SETSTATE` takes (R90); its words are `blobWords`. -/
def savedBlob (s : State) : Vector Word 33 := (s.core ++ s.cache).push (s.cur.setWidth 32)

theorem toList_savedBlob (s : State) : (savedBlob s).toList = blobWords s := by
  rw [savedBlob, Vector.toList_push, Vector.toList_append, blobWords]

theorem savedBlob_getElem_core (s : State) {n : Nat} (hn : n < 16) : (savedBlob s)[n] = s.core[n] :=
  (Vector.getElem_push_lt (by omega)).trans (Vector.getElem_append_left hn)

theorem savedBlob_getElem_cache (s : State) {n : Nat} (hn : n < 16) : (savedBlob s)[16 + n] = s.cache[n] := by
  have happend : (savedBlob s)[16 + n] = s.cache[16 + n - 16] :=
    (Vector.getElem_push_lt (by omega)).trans (Vector.getElem_append_right (by omega) (Nat.le_add_right 16 n))
  simpa only [Nat.add_sub_cancel_left] using happend

theorem blobCursor_savedBlob (s : State) : blobCursor (savedBlob s) = s.cur.setWidth 32 :=
  Vector.getElem_push_eq

theorem toNat_blobCursor_savedBlob (s : State) : (blobCursor (savedBlob s)).toNat = s.cur.toNat := by
  rw [blobCursor_savedBlob, BitVec.toNat_setWidth_of_le (by decide)]

/-- With the cursor in range, the saved blob passes the check of `SETSTATE`. -/
theorem toNat_blobCursor_savedBlob_le {s : State} (hs : CursorInRange s) : (blobCursor (savedBlob s)).toNat ≤ 64 :=
  (toNat_blobCursor_savedBlob s).trans_le ((cursorInRange_iff s).mp hs)

/-- A ready state's own blob puts any instance, its port aside, into that state. -/
theorem loadBlob_savedBlob {s : State} (u : State) (hk : s.keyValid = true) (hi : s.ivValid = true) (hs : CursorInRange s) :
    loadBlob (savedBlob s) u = { s with input := u.input, outbox := u.outbox } := by
  have hcore : blobCore (savedBlob s) = s.core := by
    ext n hn : 1
    rw [blobCore_getElem _ hn, savedBlob_getElem_core s hn]
  have hcache : blobCache (savedBlob s) = s.cache := by
    ext n hn : 1
    rw [blobCache_getElem _ hn, savedBlob_getElem_cache s hn]
  have hcur : (blobCursor (savedBlob s)).extractLsb' 0 7 = s.cur :=
    BitVec.eq_of_toNat_eq ((toNat_cut_of_le (toNat_blobCursor_savedBlob_le hs)).trans (toNat_blobCursor_savedBlob s))
  rw [loadBlob, hcore, hcache, hcur, hk, hi]

/-- A blob that `SETSTATE` loads is the blob of the state it leaves. -/
theorem savedBlob_loadBlob {blob : Vector Word 33} (s : State) (h : (blobCursor blob).toNat ≤ 64) :
    savedBlob (loadBlob blob s) = blob := by
  ext n hn : 1
  obtain hcore | ⟨h16, hcache⟩ | rfl : n < 16 ∨ (16 ≤ n ∧ n < 16 + 16) ∨ n = 32 := by omega
  · rw [savedBlob_getElem_core _ hcore, loadBlob_core, blobCore_getElem _ hcore]
  · obtain ⟨k, rfl⟩ := Nat.exists_eq_add_of_le h16
    have hk : k < 16 := Nat.lt_of_add_lt_add_left hcache
    rw [savedBlob_getElem_cache _ hk, loadBlob_cache, blobCache_getElem _ hk]
  · exact BitVec.eq_of_toNat_eq ((toNat_blobCursor_savedBlob _).trans (toNat_cut_of_le h))

/-- `GETSTATE` right after a `SETSTATE` that loads its blob: both flags are set, so it answers with that blob. -/
theorem execAll_setstate_getstate {blob : Vector Word 33} (s : State) (h : (blobCursor blob).toNat ≤ 64) :
    execAll [.setstate blob, .getstate] s =
      .next (respond .getstate blob.toList (respond .setstate [] (loadBlob blob s))) := by
  have hblob : blobWords (respond .setstate [] (loadBlob blob s)) = blob.toList :=
    (toList_savedBlob (loadBlob blob s)).symm.trans (congrArg Vector.toList (savedBlob_loadBlob s h))
  simp only [execAll, exec_setstate_of_le s h,
    exec_getstate_of_ready (s := respond .setstate [] (loadBlob blob s)) rfl rfl, hblob]

/-- Settles O37: loading a blob and reading one undo each other. -/
theorem saveAndRestoreRoundTrip : Obligations.SaveAndRestoreRoundTrip := by
  refine ⟨fun s u hk hi hs => ?_, fun s blob hle => ?_⟩
  · have hload := exec_setstate_of_le u (toNat_blobCursor_savedBlob_le hs)
    refine ⟨_, _, savedBlob s, exec_getstate_of_ready hk hi, ?_, hload, ?_⟩
    · rw [toList_savedBlob]
      rfl
    · rw [loadBlob_savedBlob u hk hi hs]
      rfl
  · refine ⟨_, execAll_setstate_getstate s hle, ?_⟩
    rw [respond_outbox, respond_outbox, loadBlob_outbox, List.append_assoc]
    rfl

/-! ## The status word (R15, R93) -/

theorem flagWord_getElem (b : Bool) {n : Nat} (hn : n < 32) : (flagWord b)[n] = (decide (n = 0) && b) := by
  cases b with
  | false => simp [flagWord]
  | true => simp [flagWord, BitVec.getElem_one]

/-- The low byte of the status word holds the two flags. -/
theorem getLsbD_statusView_low (s : State) {n : Nat} (hn : n < 8) :
    (statusView s).getLsbD n = (decide (n = 0) && s.keyValid || decide (n = 1) && s.ivValid) := by
  have hone : (!decide (n = 0) && decide (n - 1 = 0)) = decide (n = 1) := by
    rw [← decide_not, ← Bool.decide_and, decide_eq_decide]
    omega
  have hn32 : n < 32 := by omega
  simp [statusView, flagWord_getElem, ← hone, hn, hn32, Bool.and_assoc]

/-- Above its low byte stands the cursor. -/
theorem getLsbD_statusView_high (s : State) {n : Nat} (hn : n < 24) :
    (statusView s).getLsbD (8 + n) = s.cur.getLsbD n := by
  have hn32 : 8 + n < 32 := by omega
  simp [statusView, flagWord_getElem, hn32]

/-- Settles O38: the flags and their zero bits from the low byte, the cursor and its zero bits from what stands above it. -/
theorem statusReturnsTheFlagsAndCursor : Obligations.StatusReturnsTheFlagsAndCursor := by
  refine fun s => ⟨statusView s, exec_status s, ?_, ?_, ?_, ?_, ?_⟩
  · simpa using getLsbD_statusView_low s (n := 0) (by decide)
  · simpa using getLsbD_statusView_low s (n := 1) (by decide)
  · ext i hi
    rw [BitVec.getElem_extractLsb', getLsbD_statusView_high s (by omega), BitVec.getLsbD_eq_getElem hi]
  · ext i hi
    have hflag : ¬2 + i = 1 := by omega
    rw [BitVec.getElem_extractLsb', getLsbD_statusView_low s (by omega)]
    simp [hflag]
  · ext i hi
    rw [BitVec.getElem_extractLsb', show 15 + i = 8 + (7 + i) by omega, getLsbD_statusView_high s (by omega),
      BitVec.getLsbD_of_ge s.cur _ (by omega)]
    simp

end Sys2Proof.Machine
end

section
/-! SUPPORT. The exceptions (R101 to R103) and the collection of a response (R113): the packets the decoder answers with an
error, the commands refused before the state is ready, and what the port hands over when the host collects. -/

namespace Sys2Proof.Machine

/-! ## An opcode that selects no command (R101) -/

/-- Such a header is a packet by itself (R46). -/
theorem paylen_of_illegal {hdr : Word} (h : Op.ofCode (opField hdr) = none) : paylen hdr = 0 := by
  rw [paylen, h]

/-- Settles O7: the header alone is a complete packet, and the decoder's first check refuses it. -/
theorem illegalOpcodeIsAnswered : Obligations.IllegalOpcodeIsAnswered := by
  intro s hdr rest hin hop
  have hnone : Op.ofCode (opField hdr) = none := Op.ofCode_eq_none.mpr hop
  calc step s
      = runPacket hdr [] { s with input := rest } := step_of_packet hin (paylen_of_illegal hnone).symm
    _ = .next (raiseError .illegalOpcode (opField hdr) { s with input := rest }) := runPacket_of_illegal hnone _

/-! ## Reserved header bits (R102) -/

/-- Every `XORBUF` header, with the payload it asks for, is the packet of a command: the opcode has no reserved bit. -/
theorem decode_xorbuf {hdr : Word} {pay : List Word} (hop : opField hdr = Op.xorbuf.code)
    (hlen : pay.length = paylen hdr) : decode (hdr :: pay) = .ok (.xorbuf (argField hdr) pay) := by
  have hhdr : header .xorbuf (argField hdr) = hdr := header_of_fields hop
  have hwords : paylen hdr = ceil4 (argField hdr).toNat := by
    simp only [paylen, hop, Op.ofCode_code, Op.payloadWords]
  refine decode_eq_ok_iff.mpr ⟨congrArg (· :: pay) hhdr, ?_⟩
  rw [Instr.wf, hlen, hwords, beq_self_eq_true]

/-- The opcodes R50 names as having reserved bits are opcodes of commands (R48). -/
theorem exists_op_of_reserved_opcode {b : Byte} (h : b ∈ [(0x01 : Byte), 0x02, 0x03, 0x04, 0x07, 0x08, 0x09] ∨ b = 0x05) :
    ∃ o, Op.ofCode b = some o := by
  apply Option.ne_none_iff_exists'.mp
  rw [Ne, Op.ofCode_eq_none]
  revert b
  decide

/-- Settles O8: an `XORBUF` header has no reserved bit; another header with one set passes the decoder's first check and is
refused by the second, its payload taken with the packet. -/
theorem reservedFieldIsAnswered : Obligations.ReservedFieldIsAnswered := by
  refine ⟨fun _ _ => decode_xorbuf, ?_⟩
  intro s hdr pay rest hin hlen hform
  obtain ⟨o, ho⟩ : ∃ o, Op.ofCode (opField hdr) = some o :=
    exists_op_of_reserved_opcode (hform.imp And.left And.left)
  have hres : hdr &&& o.reserved ≠ 0 := (reserved_ne_zero_iff (Op.code_of_ofCode ho).symm).mpr hform
  calc step s
      = runPacket hdr pay { s with input := rest } := step_of_packet hin hlen
    _ = .next (raiseError .reservedField (opField hdr) { s with input := rest }) := runPacket_of_reserved ho hres _

/-! ## Commands before the state is ready (R103) -/

/-- Settles O23: each of the five commands is guarded, and the guard answers when a flag is clear. -/
theorem uninitialisedCommandsAreAnswered : Obligations.UninitialisedCommandsAreAnswered := by
  intro s hclear
  have hunready : s.ready = false := Bool.and_eq_false_iff.mpr hclear
  have refuse (o : Op) (guarded : o ∈ readyOps) {i : Instr} (hop : i.op = o) :
      exec i s = .next (raiseError .uninit o.code s) :=
    hop ▸ exec_of_not_ready (hop ▸ guarded) hunready
  exact ⟨refuse .step (by decide) rfl, refuse .next (by decide) rfl, fun _ => refuse .xorb (by decide) rfl,
    fun _ _ => refuse .xorbuf (by decide) rfl, refuse .getstate (by decide) rfl⟩

/-! ## Collecting a response (R113) -/

/-- A collection is what the port hands over, between packets and behind the words of an incomplete one, which stay. -/
theorem fetch_collect (received : List Word) (rest : List PortEvent)
    (hincomplete : ∀ hdr ∈ received.head?, received.length < 1 + paylen hdr) :
    fetch (received.map .word ++ .collect :: rest) = .collect (received.map .word ++ rest) := by
  cases received with
  | nil => rfl
  | cons hdr words =>
    have hshort : words.length < paylen hdr := by
      have := hincomplete hdr rfl
      rw [List.length_cons] at this
      omega
    exact gather_collect hdr (paylen hdr) [] words rest hshort

theorem step_of_collect {s : State} {rest : List PortEvent} (h : fetch s.input = .collect rest) :
    step s = .next (collectResponse { s with input := rest }) := by
  rw [step, h]

/-- Settles O13: the port hands over the collection, and it takes the head of the outbox. -/
theorem collectingTakesTheOldestResponse : Obligations.CollectingTakesTheOldestResponse :=
  fun _ received rest hin hincomplete =>
    step_of_collect ((congrArg fetch hin).trans (fetch_collect received rest hincomplete))

end Sys2Proof.Machine
end

section
/-! SUPPORT. Reset (R120, R121): the port hands it over with the words of an incomplete packet forgotten, and the step that takes
it leaves the reset state, whatever the state was. -/

namespace Sys2Proof.Machine

/-- A reset is what the port hands over, between packets and behind the words of an incomplete one, which do not stay. -/
theorem fetch_reset (received : List Word) (rest : List PortEvent)
    (hincomplete : ∀ hdr ∈ received.head?, received.length < 1 + paylen hdr) :
    fetch (received.map .word ++ .reset :: rest) = .reset rest := by
  cases received with
  | nil => rfl
  | cons hdr words =>
    have hshort : words.length < paylen hdr := by simpa [Nat.add_comm 1] using hincomplete
    exact gather_reset hdr (paylen hdr) [] words rest hshort

theorem step_of_reset {s : State} {rest : List PortEvent} (h : fetch s.input = .reset rest) :
    step s = .next (resetEvent rest) := by
  rw [step, h]

/-- Settles O11: the port hands over the reset, and the step keeps nothing of `s` but what the host sent after it. -/
theorem resetLeavesTheResetState : Obligations.ResetLeavesTheResetState := by
  intro s received rest hin hincomplete
  have hstep : step s = .next (resetEvent rest) :=
    step_of_reset ((congrArg fetch hin).trans (fetch_reset received rest hincomplete))
  exact ⟨resetEvent rest, hstep, resetEvent_keyValid rest, resetEvent_ivValid rest, resetEvent_cur rest,
    resetEvent_cache rest, resetEvent_input rest, resetEvent_outbox rest⟩

end Sys2Proof.Machine
end
